-- ==== Sys2Proof/Word.lean ====
section
/-! DEFINITION. The word types of the block: bytes of the Display Buffer, 32-bit command words, the 64-bit operand.
Bit 0 is the least significant bit of a value (00_scope.md R11); nothing is sign-extended. -/

namespace Sys2Proof

/-- One byte of the Display Buffer, a mask or an offset (00_scope.md R10, 10_state.md R22). -/
abbrev Byte := BitVec 8

/-- One 32-bit word of the host's command stream; the first word of a command is its header H (30_encoding.md R60). -/
abbrev Word := BitVec 32

/-- The 64-bit operand X of ENCODE and RENDER: a binary64 bit image carried as a whole (20_memory.md R43). -/
abbrev DWord := BitVec 64

end Sys2Proof
end

