-- ==== Sys2Proof/Config.lean ====
section
/-! DEFINITION. The configuration record of a block instance (00_scope.md R8, R10), the values the spec leaves free, and
the reference configuration of 95_test_vectors.md section 2. No command writes a configuration (10_state.md R25). -/

namespace Sys2Proof

/-- The place of one segment in the Display Buffer, a (mask, offset) pair; an entry whose mask is 0 is absent
(00_scope.md R10). -/
structure SegmentAddress where
  mask   : Byte
  offset : Byte
  deriving DecidableEq, Repr

/-- The eight entries of one digit position, index 7 being the decimal point's (00_scope.md R10). -/
abbrev SegmentTable := Vector SegmentAddress 8

/-- The configuration record of 00_scope.md R8. NGROUPS, NPOS[g], NBARS and M[b] are the lengths of the lists
(log 18); the ranges of R8 are the checks of R9, in WellFormed.lean. -/
structure Config where
  /-- BUF_BYTES -/
  bufBytes : Nat
  /-- POS: groups[g][p][i] is the SegmentAddress of segment i of position p of group g -/
  groups   : List (List SegmentTable)
  /-- BAR: bars[b][j] is the SegmentAddress of threshold j of bar b -/
  bars     : List (List SegmentAddress)
  /-- GLYPH: the segment pattern of symbol s, s = 0..9 the digits and s = 10 the sign -/
  glyph    : Vector Byte 11
  deriving DecidableEq, Repr

/-- One answer of the transport to a FLUSH that is waiting for it (00_scope.md R5, 41_segment_mapper.md R150,
70_reset_and_hazards.md R243). -/
inductive TransportAnswer where
  /-- the write succeeded -/
  | success
  /-- the write failed -/
  | failure
  /-- no answer yet: the block stays held -/
  | silent
  deriving DecidableEq, Repr

/-- What byte `o` of the buffer holds after power-on: unspecified, an independent draw per byte
(10_state.md R28, 93_implementation_defined.md U12). No proof can see a value of it (log 3). -/
opaque Config.powerOnByte : Nat → Byte

/-- The answers the transport will give after power-on: a draw (93_implementation_defined.md U13). No proof can see it
(log 4). -/
opaque Config.transportAnswers : List TransportAnswer

/-- The common seven-segment font of 41_segment_mapper.md R134: evidence only, never part of the semantics. -/
def Config.referenceGlyph : Vector Byte 11 :=
  #v[0x7E, 0x30, 0x6D, 0x79, 0x33, 0x5B, 0x5F, 0x70, 0x7F, 0x7B, 0x01]

/-- Group 0 of the reference configuration: position p is byte p, segments a..g at bits 7..1, the point at bit 0. -/
def Config.referencePointTable (p : Byte) : SegmentTable :=
  #v[⟨0x80, p⟩, ⟨0x40, p⟩, ⟨0x20, p⟩, ⟨0x10, p⟩, ⟨0x08, p⟩, ⟨0x04, p⟩, ⟨0x02, p⟩, ⟨0x01, p⟩]

/-- Group 1 of the reference configuration: as group 0 without a decimal-point segment (entry 7 absent). -/
def Config.referencePlainTable (o : Byte) : SegmentTable :=
  #v[⟨0x80, o⟩, ⟨0x40, o⟩, ⟨0x20, o⟩, ⟨0x10, o⟩, ⟨0x08, o⟩, ⟨0x04, o⟩, ⟨0x02, o⟩, ⟨0x00, 0⟩]

/-- Group 2 of the reference configuration: segment g and the point alias bit 0 of byte 12. -/
def Config.referenceAliasTable : SegmentTable :=
  #v[⟨0x80, 12⟩, ⟨0x40, 12⟩, ⟨0x20, 12⟩, ⟨0x10, 12⟩, ⟨0x08, 12⟩, ⟨0x04, 12⟩, ⟨0x01, 12⟩, ⟨0x01, 12⟩]

/-- The reference configuration of 95_test_vectors.md section 2. DESIGN CHOICE (log 2): State.reset is a block with this
board; the semantics takes any configuration. -/
def Config.reference : Config where
  bufBytes := 20
  groups :=
    [[referencePointTable 0, referencePointTable 1, referencePointTable 2, referencePointTable 3],
     [referencePlainTable 4, referencePlainTable 5],
     [referenceAliasTable]]
  bars := [[⟨0x01, 10⟩, ⟨0x02, 10⟩, ⟨0x04, 10⟩, ⟨0x08, 10⟩, ⟨0x10, 10⟩]]
  glyph := referenceGlyph

end Sys2Proof
end

