-- ==== Sys2Proof/Syntax.lean ====
section
/-! DEFINITION. The seven commands of the opcode map (30_encoding.md R68) and the symbolic codes (R70). -/

namespace Sys2Proof

/-- The commands, one constructor per row of opcode_table.json. Indexes, widths and levels are natural numbers whose
ranges are those of their header fields (WellFormed.lean); masks and the binary64 image are bit vectors. -/
inductive Instr where
  /-- ENCODE W, X (40_digit_encoder.md R100) -/
  | encode (width : Nat) (value : DWord)
  /-- RENDER g, W, X (42_consumer_api.md R160) -/
  | render (group width : Nat) (value : DWord)
  /-- SETDIG g, pos, code (41_segment_mapper.md R141) -/
  | setdig (group pos code : Nat)
  /-- SETSEG off, mask (41_segment_mapper.md R139) -/
  | setseg (off : Nat) (mask : Byte)
  /-- CLRSEG off, mask (41_segment_mapper.md R140) -/
  | clrseg (off : Nat) (mask : Byte)
  /-- BAR b, level (42_consumer_api.md R165) -/
  | bar (index level : Nat)
  /-- FLUSH (41_segment_mapper.md R150) -/
  | flush
  deriving DecidableEq, Repr

/-- A legal symbolic code (30_encoding.md R70): there is no sign with a decimal point and no overflow code
(R72, 90_conflicts.md C4, C5). The numbers of the codes are in Machine/Operands.lean (log 13). -/
inductive SymbolicDigit where
  /-- D0..D9 -/
  | digit (d : Fin 10)
  /-- SIGN, the negative-sign glyph and the overflow glyph -/
  | sign
  /-- D0P..D9P, a digit carrying the decimal point -/
  | digitPoint (d : Fin 10)
  /-- BLANK, no segments lit -/
  | blank
  deriving DecidableEq, Repr

end Sys2Proof
end

