-- ==== Sys2Proof/WellFormed.lean ====
section
/-! DEFINITION. Which commands have an encoding (30_encoding.md R62 to R66) and which configurations have a meaning
(00_scope.md R9). -/

namespace Sys2Proof

/-- Every operand fits its header field: g, b 4 bits; W, pos, off, level 8 bits; code 5 bits (30_encoding.md R62 to R66). -/
def Instr.wf : Instr → Bool
  | .encode width _       => decide (width < 256)
  | .render group width _ => decide (group < 16) && decide (width < 256)
  | .setdig group pos code => decide (group < 16) && decide (pos < 256) && decide (code < 32)
  | .setseg off _         => decide (off < 256)
  | .clrseg off _         => decide (off < 256)
  | .bar index level      => decide (index < 16) && decide (level < 256)
  | .flush                => true

/-- WF_BUF: 1 ≤ BUF_BYTES ≤ 256. -/
def Config.wfBuf (c : Config) : Bool := decide (1 ≤ c.bufBytes) && decide (c.bufBytes ≤ 256)

/-- WF_GROUPS: 1 ≤ NGROUPS ≤ 16 and NPOS[g] ≤ 256 for every g. -/
def Config.wfGroups (c : Config) : Bool :=
  decide (1 ≤ c.groups.length) && decide (c.groups.length ≤ 16) && c.groups.all (fun g => decide (g.length ≤ 256))

/-- WF_BARS: NBARS ≤ 16 and M[b] ≤ 255 for every b. -/
def Config.wfBars (c : Config) : Bool :=
  decide (c.bars.length ≤ 16) && c.bars.all (fun b => decide (b.length ≤ 255))

/-- WF_OFFSETS: every offset of every POS and BAR entry is < BUF_BYTES. -/
def Config.wfOffsets (c : Config) : Bool :=
  c.groups.all (fun g => g.all (fun t => t.toList.all (fun a => decide (a.offset.toNat < c.bufBytes))))
    && c.bars.all (fun b => b.all (fun a => decide (a.offset.toNat < c.bufBytes)))

/-- WF_GLYPH: every GLYPH[s] < 128. -/
def Config.wfGlyph (c : Config) : Bool := c.glyph.toList.all (fun p => decide (p.toNat < 128))

/-- A configuration is well-formed exactly when the five named checks of 00_scope.md R9 hold. -/
def Config.wf (c : Config) : Bool := c.wfBuf && c.wfGroups && c.wfBars && c.wfOffsets && c.wfGlyph

end Sys2Proof
end

