-- ==== Sys2Proof/Decode.lean ====
section
/-! DEFINITION. The command decoder, total on any word stream (30_encoding.md R60 to R69, R76), and after it the encoder
written from the same formats. The host's words arrive in a stream: the header H, then for op 1 and 2 the operand X as
two words, its low half first (DESIGN CHOICE, log 6). -/

namespace Sys2Proof

/-- The commands of the opcode map by name (30_encoding.md R68). -/
inductive Opcode where
  | encode | render | setdig | setseg | clrseg | bar | flush
  deriving DecidableEq, Repr

/-- What the decoder makes of the head of the word stream. -/
inductive Decoded where
  /-- a command, and the words after it -/
  | command (i : Instr) (rest : List Word)
  /-- an illegal header (R69), and the words after the command at the length R60 gives it -/
  | illegal (rest : List Word)
  /-- the host has not presented a whole command yet -/
  | incomplete
  deriving DecidableEq, Repr

/-- The `match (H)` column of R68. -/
def Opcode.pattern : Opcode → Word
  | .encode => 0x10000000
  | .render => 0x20000000
  | .setdig => 0x30000000
  | .setseg => 0x40000000
  | .clrseg => 0x50000000
  | .bar    => 0x60000000
  | .flush  => 0x70000000

/-- The `mask (H)` column of R68. -/
def Opcode.mask : Opcode → Word
  | .encode => 0xFFFF00FF
  | .render => 0xF0FF00FF
  | .setdig => 0xF0FF00E0
  | .setseg => 0xFFFF0000
  | .clrseg => 0xFFFF0000
  | .bar    => 0xF0FFFF00
  | .flush  => 0xFFFFFFFF

/-- Header `h` selects the row of `o` (R68). -/
def Opcode.selects (o : Opcode) (h : Word) : Bool := (h &&& o.mask) == o.pattern

/-- The field H[lo+len-1:lo], read as an unsigned integer (R11, R67). -/
def headerField (h : Word) (lo len : Nat) : Nat := (h.extractLsb' lo len).toNat

/-- The row of an op value, H[31:28]; none for the reserved values 0 and 8..15 (R68). -/
def opcodeRow (op : Nat) : Option Opcode :=
  match op with
  | 1 => some .encode
  | 2 => some .render
  | 3 => some .setdig
  | 4 => some .setseg
  | 5 => some .clrseg
  | 6 => some .bar
  | 7 => some .flush
  | _ => none

/-- R60: a command is followed by an operand X exactly when its op is 1 or 2, whatever its other bits. -/
def takesOperand (h : Word) : Bool := headerField h 28 4 == 1 || headerField h 28 4 == 2

/-- The length of a command in 32-bit words: 96 bits for op 1 and 2, else 32 (R60). -/
def commandWords (h : Word) : Nat := if takesOperand h then 3 else 1

/-- The operands of the row's format, read from the header and X (R62 to R67). -/
def Opcode.instr (o : Opcode) (h : Word) (x : DWord) : Instr :=
  match o with
  | .encode => .encode (headerField h 8 8) x
  | .render => .render (headerField h 24 4) (headerField h 8 8) x
  | .setdig => .setdig (headerField h 24 4) (headerField h 8 8) (headerField h 0 5)
  | .setseg => .setseg (headerField h 8 8) (h.extractLsb' 0 8)
  | .clrseg => .clrseg (headerField h 8 8) (h.extractLsb' 0 8)
  | .bar    => .bar (headerField h 24 4) (headerField h 0 8)
  | .flush  => .flush

/-- R76 on a header and its operand: the command of the row of op if the header matches the row, else none (illegal,
R69). -/
def decodeHeader (h : Word) (x : DWord) : Option Instr :=
  match opcodeRow (headerField h 28 4) with
  | none => none
  | some o => if o.selects h then some (o.instr h x) else none

/-- The decoder: total on any word stream (R76). An illegal command is consumed at the length R60 gives it (R69,
90_conflicts.md C8). -/
def decode : List Word → Decoded
  | [] => .incomplete
  | h :: ws =>
    if takesOperand h then
      match ws with
      | lo :: hi :: rest =>
        match decodeHeader h (hi ++ lo) with
        | some i => .command i rest
        | none => .illegal rest
      | _ => .incomplete
    else
      match decodeHeader h 0 with
      | some i => .command i ws
      | none => .illegal ws

/-- The row of an instruction. -/
def Instr.opcode : Instr → Opcode
  | .encode .. => .encode
  | .render .. => .render
  | .setdig .. => .setdig
  | .setseg .. => .setseg
  | .clrseg .. => .clrseg
  | .bar ..    => .bar
  | .flush     => .flush

/-- A header: op in 31:28, a 4-bit selector in 27:24, zeros in 23:16, then bits 15:8 and 7:0 (R61 to R66). -/
def packHeader (op sel high low : Nat) : Word :=
  BitVec.ofNat 32 (op % 2 ^ 4 * 2 ^ 28 + sel % 2 ^ 4 * 2 ^ 24 + high % 2 ^ 8 * 2 ^ 8 + low % 2 ^ 8)

/-- The two words of X, its low half first (log 6). -/
def operandWords (x : DWord) : List Word := [x.extractLsb' 0 32, x.extractLsb' 32 32]

/-- The words of an instruction: its header, then for ENCODE and RENDER those of X (R62 to R66). -/
def encode : Instr → List Word
  | .encode width value       => packHeader 1 0 width 0 :: operandWords value
  | .render group width value => packHeader 2 group width 0 :: operandWords value
  | .setdig group pos code    => [packHeader 3 group pos code]
  | .setseg off mask          => [packHeader 4 0 off mask.toNat]
  | .clrseg off mask          => [packHeader 5 0 off mask.toNat]
  | .bar index level          => [packHeader 6 index 0 level]
  | .flush                    => [packHeader 7 0 0 0]

/-- The words of one command whose bits are the low `nbits` of `w`, bit 0 the least significant bit of the header and
X's bits counting on from bit 32; every bit above `nbits` is 0. -/
def tableWords (nbits w : Nat) : List Word :=
  let bits := w % 2 ^ nbits
  let h : Word := BitVec.ofNat 32 bits
  if takesOperand h then [h, BitVec.ofNat 32 (bits / 2 ^ 32), BitVec.ofNat 32 (bits / 2 ^ 64)] else [h]

/-- The instruction the decoder reads from a row's bits as opcode_table.json numbers them. -/
def decodeTableWord (nbits w : Nat) : Option Instr :=
  match decode (tableWords nbits w) with
  | .command i _ => some i
  | .illegal _ => none
  | .incomplete => none

end Sys2Proof
end

