-- ==== Sys2Proof/Machine/State.lean ====
section
/-! DEFINITION. The state of the block (10_state.md): the Display Buffer, FAULT, the responses and the hold of a FLUSH,
with the configuration of the block instance and the host's and the transport's side of the interface. -/

namespace Sys2Proof.Machine

/-- The Display Buffer as one cell per byte, offsets rising (10_state.md R22). Every offset below BUF_BYTES is listed and
no other is: the buffer has no byte that holds nothing, and an unlisted offset does not exist (20_memory.md R45). -/
abbrev Memory := List Host.Cell

/-- What an offset that is not listed reads as: there is no such byte. -/
def Memory.unlisted : Option Byte := none

/-- The canonical form: the listed offsets are 0, 1, …, bufBytes − 1 in this order. So equal buffers are equal lists. -/
def Memory.wf (bufBytes : Nat) (m : Memory) : Bool := m.map Prod.fst == List.range bufBytes

/-- A buffer of `bufBytes` bytes, byte o holding `draw o`. -/
def Memory.ofDraw (bufBytes : Nat) (draw : Nat → Byte) : Memory := (List.range bufBytes).map (fun o => (o, draw o))

/-- The response to one executed command (10_state.md R27). -/
structure Response where
  status : Byte
  digits : List SymbolicDigit
  deriving DecidableEq, Repr

/-- The fault codes of 60_exceptions.md R201 by name; their numbers are in Flags.lean. -/
inductive FaultCode where
  | illegalCommand | badSelect | badPosition | badCode | badOffset | badLevel | nonfinite
  deriving DecidableEq, Repr

/-- The whole state. No field but `mem`, `fault`, `responses` and `held` is the block's own: the rest is the
configuration (a parameter of the step, log 1) and what the host and the transport hold. -/
structure State where
  /-- the configuration of the block instance (00_scope.md R8); no step writes it -/
  config    : Config
  /-- BUF (10_state.md R22) -/
  mem       : Memory
  /-- FAULT (10_state.md R23) -/
  fault     : BitVec 4
  /-- a FLUSH is waiting for the transport's answer (70_reset_and_hazards.md R243) -/
  held      : Bool
  /-- the words of the host's commands that the block has not taken yet (10_state.md R21, R30) -/
  commands  : List Word
  /-- the responses returned to the host since reset, oldest first (10_state.md R27) -/
  responses : List Response
  /-- the transport's answers to come: a draw (93_implementation_defined.md U13); at its end the transport is silent for
  ever (70_reset_and_hazards.md R243) -/
  answers   : List TransportAnswer
  /-- what each FLUSH since reset handed to the transport, oldest first (41_segment_mapper.md R150) -/
  sent      : List (List Byte)
  deriving DecidableEq, Repr

/-- Why the machine stops. -/
inductive Fault where
  /-- Raised by `step` while FAULT ≠ 0: the block executes no command and returns no response until a reset starts a new
  run (60_exceptions.md R206, R207). Safe: a run that reaches it proves nothing further. -/
  | halted
  deriving DecidableEq, Repr

/-- Why a state or an instruction has no meaning. -/
inductive Refusal where
  /-- Raised by `exec` for an instruction without a meaning; no arm of this model raises it. Safe. -/
  | notModelled (mnemonic : String)
  /-- Raised by `step` for a block instance whose configuration is not well-formed (00_scope.md R9, U8). Safe. -/
  | illFormedConfig
  deriving DecidableEq, Repr

/-- A block with configuration `c` right after power-on (10_state.md R28, 70_reset_and_hazards.md R231, R232): FAULT 0,
each buffer byte the draw given for it, nothing pending, no command presented. -/
def State.powerOn (c : Config) (draw : Nat → Byte) (answers : List TransportAnswer) : State where
  config := c
  mem := Memory.ofDraw c.bufBytes draw
  fault := 0
  held := false
  commands := []
  responses := []
  answers := answers
  sent := []

/-- The machine right after reset: every buffer byte and the transport's answers are draws no proof can see (logs 3, 4);
the board is the reference configuration (DESIGN CHOICE, log 2). -/
def State.reset : State := State.powerOn Config.reference Config.powerOnByte Config.transportAnswers

end Sys2Proof.Machine
end

