-- ==== Sys2Proof/Machine/Flags.lean ====
section
/-! DEFINITION. The one flag register of the block: FAULT (10_state.md R23, R24), its values and the response status that
reports them. -/

namespace Sys2Proof.Machine

/-- The 4-bit value of a fault code (60_exceptions.md R201). -/
def FaultCode.value : FaultCode → BitVec 4
  | .illegalCommand => 1
  | .badSelect      => 2
  | .badPosition    => 3
  | .badCode        => 4
  | .badOffset      => 5
  | .badLevel       => 6
  | .nonfinite      => 7

/-- Status OK (10_state.md R27). -/
def statusOk : Byte := 0x00

/-- Status TRANSPORT_FAIL, of a FLUSH only (10_state.md R27, 60_exceptions.md R208). -/
def statusTransportFail : Byte := 0x01

/-- Status FAULT(c): 0x80 OR the value of FAULT (10_state.md R27). -/
def statusFault (c : BitVec 4) : Byte := 0x80 ||| c.setWidth 8

end Sys2Proof.Machine
end

