-- ==== Sys2Proof/Machine/Ops.lean ====
section
/-! DEFINITION. The shared operations over the buffer and the state: reading a byte, the segment write primitive,
responding, taking a fault, the transport, and the host's reset. -/

namespace Sys2Proof.Machine

/-- What `exec` and `step` answer. -/
abbrev Result := Host.Outcome State Fault Refusal

/-! ## The Display Buffer -/

/-- BUF[o], or nothing where the buffer has no byte o. -/
def Memory.read : Memory → Nat → Option Byte
  | [], _ => Memory.unlisted
  | (a, v) :: m, o => if a = o then some v else Memory.read m o

/-- Replaces BUF[o] by a function of it; a buffer without byte o is unchanged. -/
def Memory.modify (m : Memory) (o : Nat) (f : Byte → Byte) : Memory :=
  m.map (fun c => if c.1 = o then (c.1, f c.2) else c)

/-- One set/clear operation on a segment: where it goes, and whether it sets or clears. -/
structure SegmentWrite where
  address : SegmentAddress
  on      : Bool
  deriving DecidableEq, Repr

/-- What a segment write makes of the byte it addresses: OR with the mask to set, AND with its complement to clear
(41_segment_mapper.md R130). It never inverts (R131). -/
def segByte (mask : Byte) (on : Bool) (old : Byte) : Byte := if on then old ||| mask else old &&& ~~~mask

/-- SegWrite((m, o), on) of 41_segment_mapper.md R130. -/
def segWrite (w : SegmentWrite) (m : Memory) : Memory :=
  m.modify w.address.offset.toNat (segByte w.address.mask w.on)

/-- A list of segment writes, in order: the later write decides an aliased bit (41_segment_mapper.md R142). -/
def segWrites (ws : List SegmentWrite) (m : Memory) : Memory := ws.foldl (fun m w => segWrite w m) m

/-- The bytes of the buffer in increasing offset order (41_segment_mapper.md R152). -/
def Memory.bytes (m : Memory) : List Byte := m.map Prod.snd

/-! ## Updates of the state -/

/-- Performs segment writes on the buffer. -/
def State.write (ws : List SegmentWrite) (s : State) : State := { s with mem := segWrites ws s.mem }

/-- respond((status, digits)): returns one response to the host (10_state.md R27). -/
def State.respond (status : Byte) (digits : List SymbolicDigit) (s : State) : State :=
  { s with responses := s.responses ++ [⟨status, digits⟩] }

/-- The host's words that remain after a command has been taken. -/
def State.withCommands (ws : List Word) (s : State) : State := { s with commands := ws }

/-! ## Taking a fault -/

/-- Fault entry (60_exceptions.md R203): FAULT gets the code, the host gets the fault response, nothing else changes. -/
def State.enterFault (c : FaultCode) (s : State) : State :=
  ({ s with fault := c.value } : State).respond (statusFault c.value) []

/-- raise Fault(c) (00_scope.md R12): no further part of the command is performed. The block takes the fault; it is the
next state, not a stop of the machine. -/
def raise (c : FaultCode) (s : State) : Result := .next (s.enterFault c)

/-! ## The transport -/

/-- Hands a snapshot of the whole buffer to the transport, BUF[0] first (41_segment_mapper.md R150, R152). -/
def State.handOver (s : State) : State := { s with sent := s.sent ++ [s.mem.bytes] }

/-- A FLUSH takes the transport's next answer (41_segment_mapper.md R150): success and failure end it with their
response, and while the transport is silent the block is held (70_reset_and_hazards.md R243). -/
def State.takeAnswer (s : State) : State :=
  match s.answers with
  | .success :: rest => ({ s with answers := rest, held := false } : State).respond statusOk []
  | .failure :: rest => ({ s with answers := rest, held := false } : State).respond statusTransportFail []
  | .silent :: rest  => { s with answers := rest, held := true }
  | []               => { s with held := true }

/-! ## Reset -/

/-- What reset makes of a state: FAULT 0, each buffer byte a fresh draw, nothing pending, the configuration unchanged
(10_state.md R28, 70_reset_and_hazards.md R231). The words the host has still to present and the transport's coming
answers are not the block's and stay (log 11). -/
def State.resetBlock (draw : Nat → Byte) (s : State) : State :=
  { State.powerOn s.config draw s.answers with commands := s.commands }

/-- Reset as the host's action, between commands only: not while a FLUSH holds the block (70_reset_and_hazards.md R230,
92_eei_decisions.md D32). It starts a new run and is no step (60_exceptions.md R206, R207). -/
def hostReset (draw : Nat → Byte) (s : State) : Option State :=
  if s.held then none else some (s.resetBlock draw)

end Sys2Proof.Machine
end

