-- ==== Sys2Proof/Machine/Operands.lean ====
section
/-! DEFINITION. The operand forms: the symbolic code space (30_encoding.md R70 to R73), the selection of groups,
positions and bars, and the segment writes that a code or a level stands for. -/

namespace Sys2Proof.Machine

/-! ## Symbolic codes -/

/-- The number of a code (30_encoding.md R70). -/
def codeNumber : SymbolicDigit → Nat
  | .digit d      => d.val
  | .sign         => 10
  | .digitPoint d => d.val + 20
  | .blank        => 30

/-- The code with number `n`; none for 11..19, for 31 and beyond, which are no codes (30_encoding.md R71). -/
def codeOfNumber (n : Nat) : Option SymbolicDigit :=
  if h : n < 10 then some (.digit ⟨n, h⟩)
  else if n = 10 then some .sign
  else if h : 20 ≤ n ∧ n < 30 then some (.digitPoint ⟨n - 20, by omega⟩)
  else if n = 30 then some .blank
  else none

/-- base(c): the glyph index of a code; BLANK has none (30_encoding.md R73). -/
def glyphIndex : SymbolicDigit → Option (Fin 11)
  | .digit d      => some ⟨d.val, by omega⟩
  | .sign         => some ⟨10, by omega⟩
  | .digitPoint d => some ⟨d.val, by omega⟩
  | .blank        => none

/-- dp(c): the decimal-point flag of a code (30_encoding.md R73). -/
def hasPoint : SymbolicDigit → Bool
  | .digitPoint _ => true
  | .digit _      => false
  | .sign         => false
  | .blank        => false

/-! ## Segments -/

/-- The pattern bits of a code for segments 0..6: segment i takes bit 6 − i of GLYPH[base(c)] (41_segment_mapper.md R133),
and BLANK clears all seven (R135). -/
def glyphFlags (glyph : Vector Byte 11) (c : SymbolicDigit) : List Bool :=
  match glyphIndex c with
  | some s => (List.range 7).map (fun i => glyph[s].getLsbD (6 - i))
  | none   => List.replicate 7 false

/-- The segment writes of apply(T, c): index 0 to 6, then the decimal point at index 7, set when dp(c) is 1 and cleared
otherwise (41_segment_mapper.md R135 to R137). -/
def applyWrites (glyph : Vector Byte 11) (table : SegmentTable) (c : SymbolicDigit) : List SegmentWrite :=
  List.zipWith SegmentWrite.mk table.toList (glyphFlags glyph c ++ [hasPoint c])

/-- The segment writes of a sequence of codes on the first positions of a group, cell p at position p, in increasing p
(42_consumer_api.md R160, R161). -/
def sequenceWrites (glyph : Vector Byte 11) (tables : List SegmentTable) (seq : List SymbolicDigit) :
    List SegmentWrite :=
  (List.zipWith (applyWrites glyph) tables seq).flatten

/-- The segment writes of a bar: threshold j is set when j < level and cleared otherwise, in increasing j
(42_consumer_api.md R165, R167). -/
def barWrites (thresholds : List SegmentAddress) (level : Nat) : List SegmentWrite :=
  thresholds.mapIdx (fun j a => ⟨a, decide (j < level)⟩)

/-! ## Selection -/

/-- The positions of group g; none when g ≥ NGROUPS (00_scope.md R8). -/
def State.group (s : State) (g : Nat) : Option (List SegmentTable) := s.config.groups[g]?

/-- The thresholds of bar b; none when b ≥ NBARS (00_scope.md R8). -/
def State.barTable (s : State) (b : Nat) : Option (List SegmentAddress) := s.config.bars[b]?

end Sys2Proof.Machine
end

