-- ==== Sys2Proof/Machine/DigitEncoder.lean ====
section
/-! DEFINITION. The Digit Encoder: encode(X, W) of 40_digit_encoder.md R101 to R116, and the command ENCODE (R100). All
arithmetic is exact; a binary64 magnitude is a natural number of units of 2^(−1074) (log 12). -/

namespace Sys2Proof.Machine

/-! ## The binary64 operand (R101) -/

/-- X[63]. -/
def signBit (x : DWord) : Bool := x.getLsbD 63

/-- X[62:52], the biased exponent. -/
def biasedExponent (x : DWord) : Nat := (x.extractLsb' 52 11).toNat

/-- X[51:0], the fraction. -/
def fractionBits (x : DWord) : Nat := (x.extractLsb' 0 52).toNat

/-- X is a NaN or an infinity (R101, R102). -/
def isNonfinite (x : DWord) : Bool := biasedExponent x == 2047

/-- 2^1074: the number of units in 1. -/
def unitsPerOne : Nat := 2 ^ 1074

/-- |v| of a finite X in units of 2^(−1074) (R101): f when e = 0, else (2^52 + f) · 2^(e − 1). -/
def magnitudeUnits (x : DWord) : Nat :=
  if biasedExponent x = 0 then fractionBits x else (2 ^ 52 + fractionBits x) * 2 ^ (biasedExponent x - 1)

/-- neg: v < 0, strictly; −0.0 is not negative (R103). -/
def isNegative (x : DWord) : Bool := signBit x && magnitudeUnits x != 0

/-! ## Decimal digits -/

/-- The decimal digit count of R104, on fuel that any number of at least the digits' count makes exact. -/
def digitCountFuel : Nat → Nat → Nat
  | 0, _ => 1
  | fuel + 1, n => if n < 10 then 1 else 1 + digitCountFuel fuel (n / 10)

/-- d(n) (R104). A number has no more decimal digits than binary ones. -/
def digitCount (n : Nat) : Nat := digitCountFuel (n.log2 + 1) n

/-- The last `k` decimal digits of `n`, most significant first, leading zeros kept (R114). -/
def decimalDigits : Nat → Nat → List (Fin 10)
  | 0, _ => []
  | k + 1, n => decimalDigits k (n / 10) ++ [Fin.ofNat 10 n]

/-- Drops the trailing zero digits of a fraction of `f` digits: (F, f) becomes the (F, f) of R112. -/
def dropTrailingZeros : Nat → Nat → Nat × Nat
  | 0, n => (n, 0)
  | f + 1, n => if n % 10 = 0 then dropTrailingZeros f (n / 10) else (n, f + 1)

/-- The fraction field of R112: no fraction when F is 0, else F without its trailing zeros. -/
def fractionField (k n : Nat) : Nat × Nat := if n = 0 then (0, 0) else dropTrailingZeros k n

/-! ## Rounding and layout -/

/-- R110: floor(m · 10^k + 1/2) for the exact magnitude m = num / den. -/
def roundScaled (num den k : Nat) : Nat := (2 * (num * 10 ^ k) + den) / (2 * den)

/-- The cells taken by a sign: 1 or 0 (R105). -/
def signCells (neg : Bool) : Nat := if neg then 1 else 0

/-- The overflow rendering (R108). -/
def overflowCells (width : Nat) : List SymbolicDigit := List.replicate width .sign

/-- The integer digits of I, the last one carrying the decimal point when there is a fraction (R114, R115). -/
def integerCells (i : Nat) (point : Bool) : List SymbolicDigit :=
  (decimalDigits (digitCount i - 1) (i / 10)).map .digit
    ++ [if point then .digitPoint (Fin.ofNat 10 i) else .digit (Fin.ofNat 10 i)]

/-- The layout of R114 and R115: BLANK padding, the sign, the integer digits, the fraction digits. -/
def layout (width : Nat) (neg : Bool) (i fraction fractionCells : Nat) : List SymbolicDigit :=
  let body := (if neg then [SymbolicDigit.sign] else []) ++ integerCells i (decide (0 < fractionCells))
    ++ (decimalDigits fractionCells fraction).map .digit
  List.replicate (width - body.length) .blank ++ body

/-- encode(X, W) for a finite X, from its sign and its exact magnitude num / den (R103 to R116). -/
def encodeMagnitude (neg : Bool) (num den width : Nat) : List SymbolicDigit :=
  let count := digitCount (num / den) + signCells neg
  if width < count then overflowCells width
  else
    let k := width - count
    let rounded := roundScaled num den k
    let i := rounded / 10 ^ k
    let carried := decide (count < digitCount i + signCells neg)
    if carried && decide (width < count + 1) then overflowCells width
    else
      let field := if carried then (0, 0) else fractionField k (rounded % 10 ^ k)
      layout width (neg && rounded != 0) i field.1 field.2

/-- encode(X, W) of R116; none is the fault NONFINITE (R102). -/
def encodeDigits (x : DWord) (width : Nat) : Option (List SymbolicDigit) :=
  if isNonfinite x then none else some (encodeMagnitude (isNegative x) (magnitudeUnits x) unitsPerOne width)

/-! ## The command -/

/-- ENCODE W, X (R100): responds with the sequence; writes no state (R119). -/
def execEncode (width : Nat) (value : DWord) (s : State) : Result :=
  match encodeDigits value width with
  | none     => raise .nonfinite s
  | some seq => .next (s.respond statusOk seq)

end Sys2Proof.Machine
end

