-- ==== Sys2Proof/Machine/Consumer.lean ====
section
/-! DEFINITION. The consumer operations of 42_consumer_api.md: RENDER and BAR. -/

namespace Sys2Proof.Machine

/-- RENDER g, W, X (R160): every check and the whole of encode come before the first write (R163). -/
def execRender (group width : Nat) (value : DWord) (s : State) : Result :=
  match s.group group with
  | none => raise .badSelect s
  | some tables =>
    if tables.length < width then raise .badPosition s
    else
      match encodeDigits value width with
      | none     => raise .nonfinite s
      | some seq => .next ((s.write (sequenceWrites s.config.glyph tables seq)).respond statusOk [])

/-- BAR b, level (R165). -/
def execBar (index level : Nat) (s : State) : Result :=
  match s.barTable index with
  | none => raise .badSelect s
  | some thresholds =>
    if thresholds.length < level then raise .badLevel s
    else .next ((s.write (barWrites thresholds level)).respond statusOk [])

end Sys2Proof.Machine
end

