-- ==== Sys2Proof/Machine/SegmentMapper.lean ====
section
/-! DEFINITION. The commands of 41_segment_mapper.md: SETSEG, CLRSEG, SETDIG, FLUSH. -/

namespace Sys2Proof.Machine

/-- The one segment write of SETSEG (on) and CLRSEG (off). -/
def byteWrite (off : Nat) (mask : Byte) (on : Bool) : SegmentWrite := ⟨⟨mask, BitVec.ofNat 8 off⟩, on⟩

/-- SETSEG and CLRSEG: the offset check, then one segment write (R139, R140). -/
def segCommand (off : Nat) (mask : Byte) (on : Bool) (s : State) : Result :=
  if s.config.bufBytes ≤ off then raise .badOffset s
  else .next ((s.write [byteWrite off mask on]).respond statusOk [])

/-- SETSEG off, mask (R139). -/
def execSetseg (off : Nat) (mask : Byte) (s : State) : Result := segCommand off mask true s

/-- CLRSEG off, mask (R140). -/
def execClrseg (off : Nat) (mask : Byte) (s : State) : Result := segCommand off mask false s

/-- SETDIG g, pos, code (R141): the checks in order, then apply(POS[g][pos], code). -/
def execSetdig (group pos code : Nat) (s : State) : Result :=
  match s.group group with
  | none => raise .badSelect s
  | some tables =>
    match tables[pos]? with
    | none => raise .badPosition s
    | some table =>
      match codeOfNumber code with
      | none => raise .badCode s
      | some c => .next ((s.write (applyWrites s.config.glyph table c)).respond statusOk [])

/-- FLUSH (R150): one snapshot of the buffer goes to the transport, and its answer ends the command. -/
def execFlush (s : State) : Result := .next s.handOver.takeAnswer

end Sys2Proof.Machine
end

