-- ==== Sys2Proof/Machine/Dispatch.lean ====
section
/-! DEFINITION. The meaning of each command, one arm per constructor. -/

namespace Sys2Proof.Machine

/-- What the block does with a command it executes. -/
def exec (i : Instr) (s : State) : Host.Outcome State Fault Refusal :=
  match i with
  | .encode width value => Sys2Proof.Machine.execEncode width value s
  | .render group width value => Sys2Proof.Machine.execRender group width value s
  | .setdig group pos code => Sys2Proof.Machine.execSetdig group pos code s
  | .setseg off mask => Sys2Proof.Machine.execSetseg off mask s
  | .clrseg off mask => Sys2Proof.Machine.execClrseg off mask s
  | .bar index level => Sys2Proof.Machine.execBar index level s
  | .flush => Sys2Proof.Machine.execFlush s

end Sys2Proof.Machine
end

