-- ==== Sys2Proof/Machine/Fetch.lean ====
section
/-! DEFINITION. Taking a command from the host (00_scope.md R4, 30_encoding.md R76): the block has no program counter and
fetches nothing from memory (10_state.md R21). -/

namespace Sys2Proof.Machine

/-- The command at the head of the words the host has presented. -/
def State.fetch (s : State) : Decoded := decode s.commands

/-- An illegal command: consumed at its length, it raises ILLEGAL_COMMAND and writes nothing but FAULT
(30_encoding.md R69). -/
def takeIllegal (rest : List Word) (s : State) : Result := raise .illegalCommand (s.withCommands rest)

/-- A FLUSH that holds the block: it waits for the transport's answer and takes no command (70_reset_and_hazards.md R243). -/
def waitForTransport (s : State) : Result := .next s.takeAnswer

/-- With no whole command presented the block waits for the host (70_reset_and_hazards.md R232). -/
def waitForHost (s : State) : Result := .next s

/-- The words of one command placed before the words the host has still to present. -/
def State.presentWords (s : State) (nbits w : Nat) : State := s.withCommands (tableWords nbits w ++ s.commands)

end Sys2Proof.Machine
end

