-- ==== Sys2Proof/Machine/Step.lean ====
section
/-! DEFINITION. One step of the block. -/

namespace Sys2Proof.Machine

/-- One step. A block instance with an ill-formed configuration has no meaning (00_scope.md R9); a faulted block takes no
step (60_exceptions.md R206); a FLUSH that holds the block waits for the transport (70_reset_and_hazards.md R243);
otherwise the block executes the next command of the host (00_scope.md R4). -/
def step (s : State) : Host.Outcome State Fault Refusal :=
  if s.config.wf then
    if s.fault = 0 then
      if s.held then waitForTransport s
      else
        match s.fetch with
        | .command i rest => exec i (s.withCommands rest)
        | .illegal rest => takeIllegal rest s
        | .incomplete => waitForHost s
    else .fault .halted
  else .refused .illFormedConfig

/-- `s` with one command presented next: the next step of a block that is neither faulted nor held runs exactly it. -/
def State.withFetchWord (s : State) (nbits w : Nat) : State := s.presentWords nbits w

end Sys2Proof.Machine
end

