-- ==== Sys2Proof/Machine/Assembler.lean ====
section
/-! DEFINITION. The assembler's side of the commands (30_encoding.md R74, R75): reading one line of text into words, the
pseudo-instructions and their expansions, decimal literals as the nearest binary64, and the text of a command. Nothing here
is part of a step. Where R74 leaves the grammar open, log 19 says what is taken. -/

namespace Sys2Proof.Machine

/-! ## Pseudo-instructions (R75) -/

/-- The pseudo-instructions of 30_encoding.md R75. -/
inductive Pseudo where
  /-- BLANKDIG g, pos -/
  | blankdig (group pos : Nat)
  /-- SHOW g, value -/
  | showValue (group : Nat) (value : DWord)
  /-- CLRBYTE off -/
  | clrbyte (off : Nat)
  /-- SETBYTE off -/
  | setbyte (off : Nat)
  /-- BAROFF b -/
  | baroff (index : Nat)
  /-- NOP -/
  | nop
  deriving DecidableEq, Repr

/-- The expansion column of R75; NPOS[g] of a group that does not exist is taken as 0, and the RENDER then raises
BAD_SELECT (log 19). -/
def expandPseudo (c : Config) : Pseudo → Instr
  | .blankdig group pos    => .setdig group pos (codeNumber .blank)
  | .showValue group value => .render group ((c.groups[group]?).getD []).length value
  | .clrbyte off           => .clrseg off 0xFF
  | .setbyte off           => .setseg off 0xFF
  | .baroff index          => .bar index 0
  | .nop                   => .setseg 0 0x00

/-! ## Numbers as text -/

/-- The value of a digit character, hexadecimal letters in either case (log 19). -/
def digitValue (c : Char) : Option Nat :=
  if 48 ≤ c.toNat ∧ c.toNat ≤ 57 then some (c.toNat - 48)
  else if 65 ≤ c.toNat ∧ c.toNat ≤ 70 then some (c.toNat - 55)
  else if 97 ≤ c.toNat ∧ c.toNat ≤ 102 then some (c.toNat - 87)
  else none

/-- Reads digits of a base onto an accumulator. -/
def readDigits (base : Nat) : Nat → List Char → Option Nat
  | acc, [] => some acc
  | acc, c :: cs =>
    match digitValue c with
    | some d => if d < base then readDigits base (base * acc + d) cs else none
    | none => none

/-- An unsigned decimal or `0x` hexadecimal integer (R74). -/
def readNumber : List Char → Option Nat
  | [] => none
  | '0' :: 'x' :: c :: cs => readDigits 16 0 (c :: cs)
  | c :: cs => readDigits 10 0 (c :: cs)

/-- A decimal digit character. -/
def decimalDigit (c : Char) : Option (Fin 10) :=
  match digitValue c with
  | some d => if h : d < 10 then some ⟨d, h⟩ else none
  | none => none

/-- A code by its name (R70). -/
def codeOfName (text : List Char) : Option SymbolicDigit :=
  if text = ['S', 'I', 'G', 'N'] then some .sign
  else if text = ['B', 'L', 'A', 'N', 'K'] then some .blank
  else
    match text with
    | [d, c] => if d = 'D' then (decimalDigit c).map .digit else none
    | [d, c, p] => if d = 'D' ∧ p = 'P' then (decimalDigit c).map .digitPoint else none
    | _ => none

/-- A code operand, by name or by number (R74). -/
def readCode (text : List Char) : Option Nat :=
  match codeOfName text with
  | some c => some (codeNumber c)
  | none => readNumber text

/-! ## Values (R74) -/

/-- The integer nearest to num / den, a tie going to the even one. -/
def roundTiesToEven (num den : Nat) : Nat :=
  let q := num / den
  if 2 * (num % den) < den then q else if den < 2 * (num % den) then q + 1 else q + q % 2

/-- The exponent of the spacing of binary64 at num / den, in units of 2^(−1074). -/
def literalScale (num den : Nat) : Nat := Nat.log2 (num * unitsPerOne / den) - 52

/-- The image, without its sign bit, of the binary64 nearest to num / den, a tie going to the even one (R74,
93_implementation_defined.md K3); a number that rounds past the largest finite one gives infinity. -/
def nearestImage (num den : Nat) : Nat :=
  let scale := literalScale num den
  min (scale * 2 ^ 52 + roundTiesToEven (num * unitsPerOne) (den * 2 ^ scale)) (2047 * 2 ^ 52)

/-- A decimal exponent, with an optional sign: whether it is negative, and its magnitude. -/
def readExponent : List Char → Option (Bool × Nat)
  | '-' :: c :: cs => (readDigits 10 0 (c :: cs)).map (fun n => (true, n))
  | '+' :: c :: cs => (readDigits 10 0 (c :: cs)).map (fun n => (false, n))
  | c :: cs => (readDigits 10 0 (c :: cs)).map (fun n => (false, n))
  | [] => none

/-- A character that starts the exponent of a literal. -/
def startsExponent (c : Char) : Bool := c == 'e' || c == 'E'

/-- A decimal literal without its sign, digits with an optional point and exponent, as an exact num / den. -/
def readDecimal (text : List Char) : Option (Nat × Nat) :=
  let mantissa := text.takeWhile (fun c => !startsExponent c)
  let whole := mantissa.takeWhile (fun c => c != '.')
  let fraction := (mantissa.dropWhile (fun c => c != '.')).drop 1
  let exponent := match text.dropWhile (fun c => !startsExponent c) with
    | [] => some (false, 0)
    | _ :: cs => readExponent cs
  if whole ++ fraction = [] then none
  else
    match readDigits 10 0 (whole ++ fraction), exponent with
    | some n, some (false, e) => some (n * 10 ^ e, 10 ^ fraction.length)
    | some n, some (true, e) => some (n, 10 ^ (fraction.length + e))
    | _, _ => none

/-- A decimal floating-point literal as a binary64 image (R74). -/
def readLiteral : List Char → Option DWord
  | '-' :: cs => (readDecimal cs).map (fun r => BitVec.ofNat 64 (2 ^ 63 + nearestImage r.1 r.2))
  | '+' :: cs => (readDecimal cs).map (fun r => BitVec.ofNat 64 (nearestImage r.1 r.2))
  | cs => (readDecimal cs).map (fun r => BitVec.ofNat 64 (nearestImage r.1 r.2))

/-- A value operand: `x:` and 16 hexadecimal digits, or a decimal literal (R74). -/
def readValue : List Char → Option DWord
  | 'x' :: ':' :: cs => if cs.length = 16 then (readDigits 16 0 cs).map (BitVec.ofNat 64) else none
  | cs => readLiteral cs

/-! ## Lines (R74) -/

/-- A blank between the parts of a line. -/
def isBlank (c : Char) : Bool := c == ' ' || c == '\t'

/-- A text without its leading and trailing blanks. -/
def trimBlanks (text : List Char) : List Char := ((text.dropWhile isBlank).reverse.dropWhile isBlank).reverse

/-- The parts of a text between commas. -/
def splitCommas : List Char → List (List Char)
  | [] => [[]]
  | c :: cs =>
    match splitCommas cs with
    | [] => [[c]]
    | part :: parts => if c = ',' then [] :: part :: parts else (c :: part) :: parts

/-- A mask operand: a number that fits its field. -/
def readMask (text : List Char) : Option Byte :=
  match readNumber text with
  | some n => if n < 256 then some (BitVec.ofNat 8 n) else none
  | none => none

/-- The command of a mnemonic and its operands, the syntax tables of R74 and R75. -/
def readCommand (c : Config) (mnemonic : String) (operands : List (List Char)) : Option Instr :=
  match mnemonic, operands with
  | "ENCODE", [w, v] => (readNumber w).bind fun w => (readValue v).map (.encode w)
  | "RENDER", [g, w, v] =>
    (readNumber g).bind fun g => (readNumber w).bind fun w => (readValue v).map (.render g w)
  | "SETDIG", [g, p, d] => (readNumber g).bind fun g => (readNumber p).bind fun p => (readCode d).map (.setdig g p)
  | "SETSEG", [o, m] => (readNumber o).bind fun o => (readMask m).map (.setseg o)
  | "CLRSEG", [o, m] => (readNumber o).bind fun o => (readMask m).map (.clrseg o)
  | "BAR", [b, l] => (readNumber b).bind fun b => (readNumber l).map (.bar b)
  | "FLUSH", [] => some .flush
  | "BLANKDIG", [g, p] => (readNumber g).bind fun g => (readNumber p).map fun p => expandPseudo c (.blankdig g p)
  | "SHOW", [g, v] => (readNumber g).bind fun g => (readValue v).map fun v => expandPseudo c (.showValue g v)
  | "CLRBYTE", [o] => (readNumber o).map fun o => expandPseudo c (.clrbyte o)
  | "SETBYTE", [o] => (readNumber o).map fun o => expandPseudo c (.setbyte o)
  | "BAROFF", [b] => (readNumber b).map fun b => expandPseudo c (.baroff b)
  | "NOP", [] => some (expandPseudo c .nop)
  | _, _ => none

/-- A line without its comment. -/
def uncommented (line : List Char) : List Char := trimBlanks (line.takeWhile (fun c => c != ';'))

/-- The operands of a line, blanks around them dropped; none where nothing stands after the mnemonic. -/
def operandTexts (rest : List Char) : List (List Char) :=
  if rest = [] then [] else (splitCommas rest).map trimBlanks

/-- The command on a line; none where the line is no command or an operand does not fit its field. -/
def readLine (c : Config) (line : String) : Option Instr :=
  let text := uncommented line.toList
  let mnemonic := text.takeWhile (fun c => !isBlank c)
  let rest := trimBlanks (text.dropWhile (fun c => !isBlank c))
  (readCommand c (String.ofList mnemonic) (operandTexts rest)).filter Instr.wf

/-- The words a line assembles to; a line that is empty or only a comment assembles to none. -/
def assembleLine (c : Config) (line : String) : Option (List Word) :=
  if uncommented line.toList = [] then some [] else (readLine c line).map encode

/-- The words of a program, one line after another. -/
def assemble (c : Config) : List String → Option (List Word)
  | [] => some []
  | line :: lines => (assembleLine c line).bind fun ws => (assemble c lines).map (ws ++ ·)

/-! ## Commands as text -/

/-- The digit character of a number below 16. -/
def digitChar (n : Nat) : Char := Char.ofNat (if n < 10 then 48 + n else 55 + n)

/-- The last `k` digits of `n` in a base, most significant first. -/
def numeral (base : Nat) : Nat → Nat → List Char
  | 0, _ => []
  | k + 1, n => numeral base k (n / base) ++ [digitChar (n % base)]

/-- An unsigned decimal operand (R74). -/
def decimalText (n : Nat) : List Char := numeral 10 (digitCount n) n

/-- A mask operand, two hexadecimal digits. -/
def maskText (mask : Byte) : List Char := '0' :: 'x' :: numeral 16 2 mask.toNat

/-- A value operand in the exact form. -/
def valueText (value : DWord) : List Char := 'x' :: ':' :: numeral 16 16 value.toNat

/-- The mnemonic of a command (R74). -/
def mnemonicOf : Instr → String
  | .encode .. => "ENCODE"
  | .render .. => "RENDER"
  | .setdig .. => "SETDIG"
  | .setseg .. => "SETSEG"
  | .clrseg .. => "CLRSEG"
  | .bar ..    => "BAR"
  | .flush     => "FLUSH"

/-- The operands of a command as text (R74). -/
def operandsAsText : Instr → List (List Char)
  | .encode width value       => [decimalText width, valueText value]
  | .render group width value => [decimalText group, decimalText width, valueText value]
  | .setdig group pos code    => [decimalText group, decimalText pos, decimalText code]
  | .setseg off mask          => [decimalText off, maskText mask]
  | .clrseg off mask          => [decimalText off, maskText mask]
  | .bar index level          => [decimalText index, decimalText level]
  | .flush                    => []

/-- Operands with a comma and a blank between them. -/
def joinOperands : List (List Char) → List Char
  | [] => []
  | [t] => t
  | t :: ts => t ++ ',' :: ' ' :: joinOperands ts

/-- A command in the assembler syntax of R74. -/
def assemblyText (i : Instr) : String :=
  String.ofList ((mnemonicOf i).toList ++ (if operandsAsText i = [] then [] else ' ' :: joinOperands (operandsAsText i)))

end Sys2Proof.Machine
end

