-- ==== Sys2Proof/Safety.lean ====
section
/-! DEFINITION. The terms claims use: the invariant of a run, the bits of the buffer and which entries name them, the causes
of the faults, commands in sequence, and the number a binary64 image or a digit sequence denotes. -/

namespace Sys2Proof

/-- A SegmentAddress names bit i of byte o of the buffer (00_scope.md R10). -/
def SegmentAddress.names (a : SegmentAddress) (o i : Nat) : Bool :=
  decide (a.offset.toNat = o) && a.mask.getLsbD i

/-- The commands that write the buffer (10_state.md R22). -/
def Instr.storing : Instr → Bool
  | .encode .. => false
  | .render .. => true
  | .setdig .. => true
  | .setseg .. => true
  | .clrseg .. => true
  | .bar ..    => true
  | .flush     => false

namespace Machine

/-! ## Invariant and runs -/

/-- A response has one of the forms of 10_state.md R27: OK, TRANSPORT_FAIL or FAULT(c), with digits only under OK. -/
def Response.legal (r : Response) : Prop :=
  r.status = statusOk ∨
    (r.digits = [] ∧ (r.status = statusTransportFail ∨ ∃ c : FaultCode, r.status = statusFault c.value))

/-- What holds of a block instance in every state a run reaches: its configuration is well-formed (00_scope.md R9), the
buffer has exactly BUF_BYTES bytes (10_state.md R22) and so has every transport write (41_segment_mapper.md R152), FAULT
holds no code above 7 (10_state.md R23), every response has a legal form, and a faulted block is not held and has reported
its code in its last response (60_exceptions.md R203). -/
structure State.Inv (s : State) : Prop where
  config    : s.config.wf = true
  buffer    : s.mem.wf s.config.bufBytes = true
  code      : s.fault.toNat ≤ 7
  legal     : ∀ r ∈ s.responses, r.legal
  snapshots : ∀ bytes ∈ s.sent, bytes.length = s.config.bufBytes
  faulted   : s.fault ≠ 0 → s.held = false ∧ s.responses.getLast? = some ⟨statusFault s.fault, []⟩

/-- Some number of steps leads from one state to another, none of them a fault or a refusal. -/
def Reaches (s t : State) : Prop := ∃ n, core.run n s = .next t

/-- The commands of a list executed one after another, stopping where one leaves a fault (60_exceptions.md R206). -/
def execAll : List Instr → State → Result
  | [], s => .next s
  | i :: is, s =>
    match exec i s with
    | .next t => if t.fault = 0 then execAll is t else .next t
    | .fault r => .fault r
    | .refused r => .refused r

/-- The block is neither faulted nor held, and its configuration has a meaning: it takes the next command. -/
def State.ready (s : State) : Prop := s.config.wf = true ∧ s.fault = 0 ∧ s.held = false

/-! ## The buffer -/

/-- Bit i of BUF[o]; false where there is no such byte. -/
def Memory.bit (m : Memory) (o i : Nat) : Bool := ((m.read o).getD 0).getLsbD i

/-- Segment j of a position is lit by code c: for j = 7 when c carries the decimal point, else when c has a glyph whose
pattern bit 6 − j is 1 (41_segment_mapper.md R133, R135 to R137). -/
def segmentLit (glyph : Vector Byte 11) (c : SymbolicDigit) (j : Nat) : Bool :=
  if j = 7 then hasPoint c
  else
    match glyphIndex c with
    | some s => glyph[s].getLsbD (6 - j)
    | none   => false

/-- The SegmentAddresses a command may write in a block: the one of SETSEG and CLRSEG, the entries of the position of a
SETDIG, of the first W positions of a RENDER, of the thresholds of a BAR (20_memory.md R41). -/
def State.entries (s : State) : Instr → List SegmentAddress
  | .encode .. => []
  | .render group width _ => (((s.group group).getD []).take width).flatMap (fun t => t.toList)
  | .setdig group pos _ => ((((s.group group).getD [])[pos]?).map (fun t => t.toList)).getD []
  | .setseg off mask => [⟨mask, BitVec.ofNat 8 off⟩]
  | .clrseg off mask => [⟨mask, BitVec.ofNat 8 off⟩]
  | .bar index _ => (s.barTable index).getD []
  | .flush => []

/-! ## Faults -/

/-- The causes of 60_exceptions.md R201 for a decoded command. A position or a level is out of range only where its group
or bar exists. -/
def State.faultCause (s : State) : Instr → FaultCode → Prop
  | .encode _ value, .nonfinite => isNonfinite value = true
  | .render g _ _, .badSelect => s.config.groups.length ≤ g
  | .render g width _, .badPosition => ∃ tables, s.config.groups[g]? = some tables ∧ tables.length < width
  | .render _ _ value, .nonfinite => isNonfinite value = true
  | .setdig g _ _, .badSelect => s.config.groups.length ≤ g
  | .setdig g pos _, .badPosition => ∃ tables, s.config.groups[g]? = some tables ∧ tables.length ≤ pos
  | .setdig _ _ code, .badCode => (11 ≤ code ∧ code ≤ 19) ∨ 31 ≤ code
  | .setseg off _, .badOffset => s.config.bufBytes ≤ off
  | .clrseg off _, .badOffset => s.config.bufBytes ≤ off
  | .bar b _, .badSelect => s.config.bars.length ≤ b
  | .bar b level, .badLevel => ∃ thresholds, s.config.bars[b]? = some thresholds ∧ thresholds.length < level
  | _, _ => False

/-! ## Numbers -/

/-- The rational a finite X denotes (40_digit_encoder.md R101). -/
def realValue (x : DWord) : ℚ :=
  (if signBit x then -1 else 1) *
    (if biasedExponent x = 0 then (fractionBits x : ℚ) * 2 ^ (-1074 : ℤ)
     else (2 ^ 52 + (fractionBits x : ℚ)) * 2 ^ ((biasedExponent x : ℤ) - 1075))

/-- The digit a cell shows, if it shows one. -/
def cellDigit : SymbolicDigit → Option Nat
  | .digit d      => some d.val
  | .digitPoint d => some d.val
  | .sign         => none
  | .blank        => none

/-- The natural number the digits of a sequence spell, the decimal point left aside. -/
def spelledDigits (seq : List SymbolicDigit) : Nat :=
  (seq.filterMap cellDigit).foldl (fun n d => 10 * n + d) 0

/-- The number of cells after the cell that carries the decimal point; 0 where none does. -/
def cellsAfterPoint (seq : List SymbolicDigit) : Nat := (seq.dropWhile (fun c => !hasPoint c)).length - 1

/-- The number a digit sequence shows: its digits, scaled by its decimal point, negative when it has a sign. -/
def shownNumber (seq : List SymbolicDigit) : ℚ :=
  (if SymbolicDigit.sign ∈ seq then -1 else 1) * (spelledDigits seq : ℚ) / 10 ^ cellsAfterPoint seq

end Machine

end Sys2Proof
end

