-- ==== Sys2Proof/Certificates/Slice0/Obligations.lean ====
section
/-! DEFINITION. The statements for the provers, each over all states, operands or word streams it names. Each docstring
says which rules of spec/ it formalises; OBLIGATIONS.json lists them. Most rules of this spec are marked as its own
decision (92_eei_decisions.md D1 to D36) or as derived by it; the statements that rest on one, and those that rest on a log
entry of the model, are of basis 'derived' there (log 14). -/

open Sys2Proof Sys2Proof.Machine

/-! ## Encoding (30_encoding.md) -/

/-- R67, R68: a header selects a command exactly when it matches that command's row of the opcode map, written out here
from the table, and its operands are then the row's fields read as unsigned numbers. -/
def Obligations.HeaderSelectsExactlyTheRowItMatches : Prop :=
  ∀ (h : Word) (x : DWord) (i : Instr), decodeHeader h x = some i ↔
    (h &&& 0xFFFF00FF = 0x10000000 ∧ i = .encode (h.toNat / 2 ^ 8 % 2 ^ 8) x) ∨
    (h &&& 0xF0FF00FF = 0x20000000 ∧ i = .render (h.toNat / 2 ^ 24 % 2 ^ 4) (h.toNat / 2 ^ 8 % 2 ^ 8) x) ∨
    (h &&& 0xF0FF00E0 = 0x30000000 ∧
      i = .setdig (h.toNat / 2 ^ 24 % 2 ^ 4) (h.toNat / 2 ^ 8 % 2 ^ 8) (h.toNat % 2 ^ 5)) ∨
    (h &&& 0xFFFF0000 = 0x40000000 ∧ i = .setseg (h.toNat / 2 ^ 8 % 2 ^ 8) (BitVec.ofNat 8 h.toNat)) ∨
    (h &&& 0xFFFF0000 = 0x50000000 ∧ i = .clrseg (h.toNat / 2 ^ 8 % 2 ^ 8) (BitVec.ofNat 8 h.toNat)) ∨
    (h &&& 0xF0FFFF00 = 0x60000000 ∧ i = .bar (h.toNat / 2 ^ 24 % 2 ^ 4) (h.toNat % 2 ^ 8)) ∨
    (h &&& 0xFFFFFFFF = 0x70000000 ∧ i = .flush)

/-- R68: no two rows of the opcode map match one header. -/
def Obligations.NoHeaderMatchesTwoRows : Prop :=
  ∀ (h : Word) (a b : Opcode), h &&& a.mask = a.pattern → h &&& b.mask = b.pattern → a = b

/-- R60: the length of a command is decided by H[31:28] alone, 96 bits for 1 and 2 and 32 bits for every other value;
a stream that holds less than the command is incomplete, and one that holds it is decoded with exactly the command's
words taken. That X comes as two words is the model's choice (log 6). -/
def Obligations.CommandLengthIsDecidedByOpAlone : Prop :=
  ∀ (h : Word) (ws : List Word),
    let n := if h.toNat / 2 ^ 28 = 1 ∨ h.toNat / 2 ^ 28 = 2 then 3 else 1
    (ws.length + 1 < n → decode (h :: ws) = .incomplete) ∧
    (n ≤ ws.length + 1 →
      (∃ i, decode (h :: ws) = .command i ((h :: ws).drop n)) ∨ decode (h :: ws) = .illegal ((h :: ws).drop n))

/-- R62 to R68: the words of a well-formed instruction, followed by anything, decode to it with every operand kept.
That X comes as two words, low half first, is the model's choice (log 6). -/
def Obligations.DecodeOfEncodeIsTheInstruction : Prop :=
  ∀ (i : Instr) (rest : List Word), i.wf = true → decode (encode i ++ rest) = .command i rest

/-- R60 to R69: what decodes is a well-formed instruction whose own words are the words taken, so no two word
sequences stand for one instruction. That X comes as two words, low half first, is the model's choice (log 6). -/
def Obligations.EncodeOfDecodeIsTheWords : Prop :=
  ∀ (ws : List Word) (i : Instr) (rest : List Word),
    decode ws = .command i rest → i.wf = true ∧ encode i ++ rest = ws

/-- R62 to R66, R70: words written out from the formats decode to the commands they stand for. That X comes as two
words, low half first, is the model's choice (log 6). -/
def Obligations.WrittenOutWordsDecode : Prop :=
  decode [0x10000600, 0x00000000, 0x409F0000] = .command (.encode 6 0x409F000000000000) [] ∧
  decode [0x21000200, 0x00000000, 0x40040000] = .command (.render 1 2 0x4004000000000000) [] ∧
  decode [0x3000011E] = .command (.setdig 0 1 30) [] ∧
  decode [0x400003F0] = .command (.setseg 3 0xF0) [] ∧
  decode [0x50000381] = .command (.clrseg 3 0x81) [] ∧
  decode [0x61000003] = .command (.bar 1 3) [] ∧
  decode [0x70000000] = .command .flush []

/-- R70, R72: the legal code values are exactly 0..9, the digits without a decimal point; 10, the sign; 20..29, the digits
with a decimal point; and 30, blank. No code is a sign with a decimal point. -/
def Obligations.CodesAreTheSourcesNumbers : Prop :=
  (∀ n c, codeOfNumber n = some c ↔ codeNumber c = n) ∧
  (∀ n, (∃ c, codeNumber c = n) ↔ n ≤ 10 ∨ (20 ≤ n ∧ n ≤ 30)) ∧
  (∀ d : Fin 10, codeOfNumber d = some (.digit d) ∧ codeOfNumber (d + 20) = some (.digitPoint d)) ∧
  codeOfNumber 10 = some .sign ∧ codeOfNumber (10 + 20) = some .blank ∧
  ∀ c, hasPoint c = true → ∃ d, c = .digitPoint d

/-- R73: the glyph index and the decimal-point flag are read off a code's number. -/
def Obligations.GlyphAndPointAreReadOffTheNumber : Prop :=
  (∀ c, codeNumber c ≤ 10 → (glyphIndex c).map Fin.val = some (codeNumber c) ∧ hasPoint c = false) ∧
  (∀ c, 20 ≤ codeNumber c → codeNumber c ≤ 29 →
    (glyphIndex c).map Fin.val = some (codeNumber c - 20) ∧ hasPoint c = true) ∧
  (∀ c, codeNumber c = 30 → glyphIndex c = none ∧ hasPoint c = false)

/-! ## The step (00_scope.md, 10_state.md, 60_exceptions.md, 70_reset_and_hazards.md) -/

/-- R4, R76: a block that is ready executes the command at the head of the host's words, after taking its words. That
the commands are a stream of words is the model's choice (log 6). -/
def Obligations.StepExecutesTheDecodedCommand : Prop :=
  ∀ (s : State) (i : Instr) (rest : List Word),
    s.ready → decode s.commands = .command i rest → step s = exec i { s with commands := rest }

/-- R69: an illegal command (op 0 or 8..15, or a header that does not match the row of its op) raises ILLEGAL_COMMAND,
is consumed at its length, and writes nothing but FAULT. That X comes as two words is the model's choice (log 6). -/
def Obligations.IllegalHeaderRaisesIllegalCommand : Prop :=
  ∀ (s : State) (h : Word) (ws : List Word),
    s.ready → s.commands = h :: ws → commandWords h ≤ ws.length + 1 → (∀ o : Opcode, h &&& o.mask ≠ o.pattern) →
    step s = .next { s with
      commands := (h :: ws).drop (commandWords h), fault := 1, responses := s.responses ++ [⟨0x81, []⟩] }

/-- R232: with no whole command presented the block waits for the host, and nothing changes. That waiting is a step
which changes nothing is the model's choice (log 7). -/
def Obligations.BlockWaitsForTheHost : Prop :=
  ∀ s : State, s.ready → decode s.commands = .incomplete → step s = .next s

/-- R206, R207: while FAULT ≠ 0 the block takes no step and returns no response, whatever is presented, and no run
leads anywhere from there. That "no step" is the fault halted is the model's choice (log 8). -/
def Obligations.FaultedBlockTakesNoStep : Prop :=
  ∀ s : State, s.config.wf = true → s.fault ≠ 0 →
    step s = .fault .halted ∧ ∀ t, Reaches s t → t = s

/-- R9: a configuration is well-formed exactly when the five named checks hold, and a block instance whose
configuration is not is refused. That the step refuses is the model's choice (log 9). -/
def Obligations.IllFormedConfigurationIsRefused : Prop :=
  (∀ c : Config, c.wf = true ↔
    (1 ≤ c.bufBytes ∧ c.bufBytes ≤ 256) ∧
    (1 ≤ c.groups.length ∧ c.groups.length ≤ 16 ∧ ∀ g ∈ c.groups, g.length ≤ 256) ∧
    (c.bars.length ≤ 16 ∧ ∀ b ∈ c.bars, b.length ≤ 255) ∧
    ((∀ g ∈ c.groups, ∀ t ∈ g, ∀ j : Fin 8, t[j].offset.toNat < c.bufBytes) ∧
      ∀ b ∈ c.bars, ∀ a ∈ b, a.offset.toNat < c.bufBytes) ∧
    ∀ s : Fin 11, c.glyph[s].toNat < 128) ∧
  ∀ s : State, s.config.wf = false → step s = .refused .illFormedConfig

/-- R25, R30: no run changes the configuration. That the configuration rides in the state is the model's choice (log
1). -/
def Obligations.ConfigurationNeverChanges : Prop :=
  ∀ s t : State, Reaches s t → t.config = s.config

/-- R23, R203, R204: a step leaves FAULT clear, or it executes a faulting command: no FLUSH holds the block, the command is
illegal and the code is ILLEGAL_COMMAND, or it is a decoded one and the code is that of a cause that applies to it; FAULT
gets the code, the response is 0x80 OR the code, the command's words are taken, and nothing else changes. The stream of
words and the kept list of responses are the model's choice (logs 6, 10). -/
def Obligations.StepWritesFaultOnlyByAFaultingCommand : Prop :=
  ∀ s t : State, step s = .next t →
    s.fault = 0 ∧
    (t.fault = 0 ∨ s.held = false ∧ ∃ (c : FaultCode) (rest : List Word),
      ((decode s.commands = .illegal rest ∧ c = .illegalCommand) ∨
        ∃ i, decode s.commands = .command i rest ∧ s.faultCause i c) ∧
      t = { s with
        commands := rest, fault := c.value, responses := s.responses ++ [⟨0x80 ||| c.value.setWidth 8, []⟩] })

/-- R22: a step that changes the buffer executes SETSEG, CLRSEG, SETDIG, RENDER or BAR, the next command of the host, while
no FLUSH holds the block, and without a fault; ENCODE, FLUSH, a faulting command and every wait leave the buffer alone. That
the hold is in the state and the commands are a stream of words is the model's choice (logs 5, 6). -/
def Obligations.BufferChangesOnlyByStoringCommands : Prop :=
  ∀ s t : State, step s = .next t → t.mem ≠ s.mem →
    s.held = false ∧ t.fault = 0 ∧ ∃ (i : Instr) (rest : List Word), decode s.commands = .command i rest ∧
      i.storing = true ∧ exec i { s with commands := rest } = .next t

/-- The invariant of Safety.lean holds right after reset. It rests on the model's choice of the reference configuration
for State.reset (log 2). -/
def Obligations.ResetMeetsTheInvariant : Prop := State.reset.Inv

/-- R28, R231: a block with any well-formed configuration meets the invariant after power-on, whatever its buffer
bytes and the transport's answers are. The list of answers is the model's choice (log 4). -/
def Obligations.PowerOnMeetsTheInvariant : Prop :=
  ∀ (c : Config) (draw : Nat → Byte) (answers : List TransportAnswer),
    c.wf = true → (State.powerOn c draw answers).Inv

/-- R9, R22, R23, R27, R152, R203: every step keeps the invariant. -/
def Obligations.EveryStepKeepsTheInvariant : Prop :=
  ∀ s t : State, s.Inv → step s = .next t → t.Inv

/-- R29: the contents of the buffer are seen only through FLUSH. Two blocks that differ in the buffer alone take steps
that differ in the buffer alone, but for the bytes a FLUSH hands to the transport. The record of what was sent is the
model's choice (log 10). -/
def Obligations.BufferIsSeenOnlyThroughFlush : Prop :=
  ∀ (s : State) (m : Memory),
    (∀ r, step s = .fault r → step { s with mem := m } = .fault r) ∧
    (∀ r, step s = .refused r → step { s with mem := m } = .refused r) ∧
    ∀ t, step s = .next t → ∃ m' sent', step { s with mem := m } = .next { t with mem := m', sent := sent' } ∧
      ((∀ rest, decode s.commands ≠ .command .flush rest) → sent' = t.sent)

/-- R27: a command the block executes returns exactly one response, of a legal form, with digits for ENCODE only; a
FLUSH returns none while the transport holds it. The hold and the kept list of responses are the model's choice (logs
5, 10). -/
def Obligations.ExecutedCommandReturnsOneResponse : Prop :=
  ∀ (i : Instr) (s t : State), exec i s = .next t →
    (∃ r, t.responses = s.responses ++ [r] ∧ r.legal ∧ (r.digits ≠ [] → ∃ width value, i = .encode width value)) ∨
    (i = .flush ∧ t.held = true ∧ t.responses = s.responses)

/-- R201, R205: of the causes that apply to a command the one with the lowest code is reported, with nothing but FAULT
written, and a command to which no cause applies does not fault. -/
def Obligations.LowestApplicableFaultIsReported : Prop :=
  ∀ (i : Instr) (s : State),
    (∀ c, s.faultCause i c → (∀ d, s.faultCause i d → c.value ≤ d.value) →
      exec i s = .next { s with
        fault := c.value, responses := s.responses ++ [⟨0x80 ||| c.value.setWidth 8, []⟩] }) ∧
    ((∀ c, ¬ s.faultCause i c) → ∃ t, exec i s = .next t ∧ t.fault = s.fault)

/-- R20, R41, R169: a command changes no bit of the buffer but those its own entries name, and no byte they do not
address. -/
def Obligations.CommandChangesOnlyTheBitsItNames : Prop :=
  ∀ (i : Instr) (s t : State), exec i s = .next t →
    (∀ o, (∀ a ∈ s.entries i, a.offset.toNat ≠ o) → t.mem.read o = s.mem.read o) ∧
    ∀ o k, (∀ a ∈ s.entries i, a.names o k = false) → t.mem.bit o k = s.mem.bit o k

/-! ## The Digit Encoder (40_digit_encoder.md) -/

/-- R104: the decimal digit count. -/
def Obligations.DigitCountIsTheDecimalDigitCount : Prop :=
  (∀ n, n ≤ 9 → digitCount n = 1) ∧ ∀ n, 10 ≤ n → digitCount n = 1 + digitCount (n / 10)

/-- R101, R103: a finite X denotes an exact rational whose magnitude is the encoder's, and it is negative exactly when it
lies strictly below zero. -/
def Obligations.OperandDenotesItsExactValue : Prop :=
  ∀ x : DWord, |realValue x| = (magnitudeUnits x : ℚ) / unitsPerOne ∧ (isNegative x = true ↔ realValue x < 0)

/-- R110: rounding is half-up on the exact magnitude, and it is the integer part plus the fractional part rounded alone. -/
def Obligations.RoundingIsExactHalfUp : Prop :=
  ∀ num den k : Nat, 0 < den →
    let m : ℚ := (num : ℚ) / den
    (roundScaled num den k : ℤ) = ⌊m * 10 ^ k + 1 / 2⌋ ∧
    (roundScaled num den k : ℤ) = ⌊m⌋ * 10 ^ k + ⌊(m - ⌊m⌋) * 10 ^ k + 1 / 2⌋

/-- R100, R117, R119: ENCODE of a finite value, of any width, returns a sequence of exactly W cells that depends on X and W
alone, and writes no state. -/
def Obligations.EncodeReturnsTheSequence : Prop :=
  ∀ (width : Nat) (value : DWord), isNonfinite value = false →
    ∃ seq, seq.length = width ∧ encodeDigits value width = some seq ∧ ∀ s : State,
      exec (.encode width value) s = .next { s with responses := s.responses ++ [⟨0x00, seq⟩] }

/-- R119: ENCODE writes no state. Whatever the state, its configuration and its buffer, its response is the same; FAULT
changes only where it faults, and nothing else does. -/
def Obligations.EncodeWritesNoState : Prop :=
  ∀ (width : Nat) (value : DWord), ∃ (code : Option FaultCode) (r : Response), ∀ s : State,
    exec (.encode width value) s = .next { s with
      fault := (code.map FaultCode.value).getD s.fault, responses := s.responses ++ [r] }

/-- R102: ENCODE of a NaN or an infinity (e = 2047) raises NONFINITE and produces no sequence. -/
def Obligations.EncodeOfNonfiniteFaults : Prop :=
  ∀ (s : State) (width : Nat) (value : DWord), (value.extractLsb' 52 11).toNat = 2047 →
    exec (.encode width value) s = .next { s with fault := 7, responses := s.responses ++ [⟨0x87, []⟩] }

/-- R103 to R116: the sequence of a finite value shows the value rounded half-up on its magnitude to the k = W − c decimals
that its integer digits and its sign leave, with the sign of the value; where the integer part, or the rounded number,
needs more than W cells, every cell is SIGN. -/
def Obligations.EncodeShowsTheRoundedValue : Prop :=
  ∀ (width : Nat) (value : DWord), isNonfinite value = false →
    let v := realValue value
    let neg := decide (v < 0)
    let c := digitCount ⌊|v|⌋₊ + (if neg then 1 else 0)
    let k := width - c
    let r := ⌊|v| * 10 ^ k + 1 / 2⌋₊
    ∃ seq, encodeDigits value width = some seq ∧
      if c ≤ width ∧ digitCount (r / 10 ^ k) + (if neg then 1 else 0) ≤ width
      then shownNumber seq = (if neg then -1 else 1) * (r : ℚ) / 10 ^ k
      else seq = List.replicate width .sign

/-- R107, R108: where the integer digits and the sign cell need more than W cells, the result is W cells of SIGN, and it is
no fault. -/
def Obligations.EncodeOverflowFillsWithSigns : Prop :=
  ∀ (s : State) (width : Nat) (value : DWord), isNonfinite value = false →
    width < digitCount ⌊|realValue value|⌋₊ + (if realValue value < 0 then 1 else 0) →
    exec (.encode width value) s =
      .next { s with responses := s.responses ++ [⟨0x00, List.replicate width .sign⟩] }

/-- R107, R108, R111 to R115, R121: the result of a finite value overflows, and is then W cells of SIGN, exactly where the
integer digits of the value, or those of the rounded value, and the sign cell need more than W cells. Otherwise it is BLANK
cells, then one SIGN exactly when the value is negative and does not round to zero, then the integer digits without a
leading zero, the last of them carrying the decimal point exactly when there is a fraction, then the fraction digits, the
last of them not 0; and it shows a single 0 exactly when the value rounds to zero. -/
def Obligations.EncodeResultHasTheLayout : Prop :=
  ∀ (width : Nat) (value : DWord) (seq : List SymbolicDigit), encodeDigits value width = some seq →
    let v := realValue value
    let neg := decide (v < 0)
    let c := digitCount ⌊|v|⌋₊ + (if neg then 1 else 0)
    let k := width - c
    let r := ⌊|v| * 10 ^ k + 1 / 2⌋₊
    if c ≤ width ∧ digitCount (r / 10 ^ k) + (if neg then 1 else 0) ≤ width then
      ∃ (pad : Nat) (ints : List (Fin 10)) (last : Fin 10) (fraction : List (Fin 10)),
        seq = List.replicate pad SymbolicDigit.blank
          ++ List.replicate (if neg ∧ r ≠ 0 then 1 else 0) SymbolicDigit.sign
          ++ ints.map SymbolicDigit.digit
          ++ [if fraction = [] then SymbolicDigit.digit last else SymbolicDigit.digitPoint last]
          ++ fraction.map SymbolicDigit.digit ∧
        ints.head? ≠ some 0 ∧ fraction.getLast? ≠ some 0 ∧ (r = 0 ↔ ints = [] ∧ last = 0 ∧ fraction = [])
    else seq = List.replicate width .sign

/-- R118, R120: +0.0 and −0.0 show BLANK cells and one D0, without sign or decimal point; in no cells, nothing. -/
def Obligations.BothZerosShowOneZero : Prop :=
  (∀ width, encodeDigits 0x0000000000000000 (width + 1) = some (List.replicate width .blank ++ [.digit 0])) ∧
  encodeDigits 0x0000000000000000 0 = some [] ∧
  ∀ width, encodeDigits 0x8000000000000000 width = encodeDigits 0x0000000000000000 width

/-! ## The segment mapper (41_segment_mapper.md) -/

/-- R130, R139: SETSEG with an offset in the buffer ORs its mask into that byte, leaves every other byte and every other
part of the state alone, and responds OK. -/
def Obligations.SetsegSetsTheMaskBits : Prop :=
  ∀ (s : State) (off : Nat) (mask old : Byte), off < 256 → off < s.config.bufBytes → s.mem.read off = some old →
    ∃ m, exec (.setseg off mask) s = .next { s with mem := m, responses := s.responses ++ [⟨0x00, []⟩] } ∧
      m.read off = some (old ||| mask) ∧ ∀ o, o ≠ off → m.read o = s.mem.read o

/-- R130, R140: CLRSEG clears the bits of its mask in that byte, leaves the rest alone, and responds OK. -/
def Obligations.ClrsegClearsTheMaskBits : Prop :=
  ∀ (s : State) (off : Nat) (mask old : Byte), off < 256 → off < s.config.bufBytes → s.mem.read off = some old →
    ∃ m, exec (.clrseg off mask) s = .next { s with mem := m, responses := s.responses ++ [⟨0x00, []⟩] } ∧
      m.read off = some (old &&& ~~~mask) ∧ ∀ o, o ≠ off → m.read o = s.mem.read o

/-- R45, R139, R140: an offset outside the buffer raises BAD_OFFSET, whatever the mask, and writes no byte. -/
def Obligations.OffsetOutsideTheBufferFaults : Prop :=
  ∀ (s : State) (off : Nat) (mask : Byte) (i : Instr), s.config.bufBytes ≤ off →
    i = .setseg off mask ∨ i = .clrseg off mask →
    exec i s = .next { s with fault := 5, responses := s.responses ++ [⟨0x85, []⟩] }

/-- R132: a write of an absent entry changes nothing. -/
def Obligations.AbsentEntryChangesNothing : Prop :=
  ∀ (offset : Byte) (on : Bool) (m : Memory), segWrite ⟨⟨0, offset⟩, on⟩ m = m

/-- R142: in a list of segment writes the last one that names a bit decides it, and a bit none names is kept. -/
def Obligations.LastWriteDecidesTheBit : Prop :=
  ∀ (ws : List SegmentWrite) (m : Memory) (o k : Nat) (old : Byte), m.read o = some old →
    (segWrites ws m).bit o k =
      match ws.reverse.find? (fun w => w.address.names o k) with
      | some w => w.on
      | none => m.bit o k

/-- R135: BLANK clears the seven segments and the decimal point of a position, and no other bit. -/
def Obligations.BlankClearsThePosition : Prop :=
  ∀ (glyph : Vector Byte 11) (table : SegmentTable) (m : Memory) (o k : Nat),
    ((∃ j : Fin 8, table[j].names o k = true) → (segWrites (applyWrites glyph table .blank) m).bit o k = false) ∧
    ((∀ j : Fin 8, table[j].names o k = false) → (segWrites (applyWrites glyph table .blank) m).bit o k = m.bit o k)

/-- R137: applying a code sets the bits of entry 7 when the code carries the decimal point and clears them otherwise; the
codes that carry it are 20..29; where entry 7 is absent, only the other seven entries are written. -/
def Obligations.DecimalPointFollowsTheFlag : Prop :=
  (∀ (glyph : Vector Byte 11) (table : SegmentTable) (c : SymbolicDigit) (m : Memory) (o k : Nat) (old : Byte),
    m.read o = some old → table[7].names o k = true →
    (segWrites (applyWrites glyph table c) m).bit o k = hasPoint c) ∧
  (∀ c, hasPoint c = true ↔ 20 ≤ codeNumber c ∧ codeNumber c ≤ 29) ∧
  ∀ (glyph : Vector Byte 11) (table : SegmentTable) (c : SymbolicDigit) (m : Memory), table[7].mask = 0 →
    segWrites (applyWrites glyph table c) m = segWrites ((applyWrites glyph table c).take 7) m

/-- R133, R135 to R137, R141: SETDIG with a group, a position and a code that exist draws the code there and changes nothing
else but its response. A bit that segment j names and no later segment of the position names is set exactly when the code
lights segment j; a bit no segment names is kept; a byte no segment addresses is kept. -/
def Obligations.SetdigDrawsTheCode : Prop :=
  ∀ (s : State) (g pos code : Nat) (tables : List SegmentTable) (table : SegmentTable) (c : SymbolicDigit),
    s.config.wf = true → s.mem.wf s.config.bufBytes = true →
    s.config.groups[g]? = some tables → tables[pos]? = some table → codeNumber c = code →
    ∃ m, exec (.setdig g pos code) s = .next { s with mem := m, responses := s.responses ++ [⟨0x00, []⟩] } ∧
      (∀ (o k : Nat) (j : Fin 8), table[j].names o k = true →
        (∀ j' : Fin 8, j < j' → table[j'].names o k = false) → m.bit o k = segmentLit s.config.glyph c j) ∧
      (∀ o k, (∀ j : Fin 8, table[j].names o k = false) → m.bit o k = s.mem.bit o k) ∧
      ∀ o, (∀ j : Fin 8, table[j].offset.toNat ≠ o) → m.read o = s.mem.read o

/-- R71: SETDIG of a number that is no code raises BAD_CODE at a position that exists, and the Digit Encoder produces none
of those numbers. -/
def Obligations.NumbersThatAreNoCodesFault : Prop :=
  (∀ (s : State) (g pos code : Nat) (tables : List SegmentTable),
    s.config.groups[g]? = some tables → pos < tables.length → (11 ≤ code ∧ code ≤ 19) ∨ code = 31 →
    exec (.setdig g pos code) s = .next { s with fault := 4, responses := s.responses ++ [⟨0x84, []⟩] }) ∧
  ∀ (width : Nat) (value : DWord) (seq : List SymbolicDigit), encodeDigits value width = some seq →
    ∀ c ∈ seq, ¬ ((11 ≤ codeNumber c ∧ codeNumber c ≤ 19) ∨ codeNumber c = 31)

/-- R138: SETSEG, CLRSEG, SETDIG, RENDER and BAR are idempotent on the buffer, even where entries alias. -/
def Obligations.StoringTwiceIsStoringOnce : Prop :=
  ∀ (i : Instr) (s t u : State), i.storing = true → exec i s = .next t → exec i t = .next u → u.mem = t.mem

/-- R169: storing commands whose entries name no bit in common leave the same buffer in either order. -/
def Obligations.DisjointUpdatesCommute : Prop :=
  ∀ (i j : Instr) (s t u t' u' : State), i.storing = true → j.storing = true →
    (∀ a ∈ s.entries i, ∀ b ∈ s.entries j, ∀ o k, ¬ (a.names o k = true ∧ b.names o k = true)) →
    exec i s = .next t → exec j t = .next u → exec j s = .next t' → exec i t' = .next u' → u.mem = u'.mem

/-- R150, R152: FLUSH hands all bytes of the buffer to the transport in one call, BUF[0] first, leaves the buffer and
FAULT as they are, and responds OK on success and TRANSPORT_FAIL on failure. The list of answers and the record of
what was sent are the model's choice (logs 4, 10). -/
def Obligations.FlushSendsTheWholeBuffer : Prop :=
  ∀ (s : State) (answer : TransportAnswer) (rest : List TransportAnswer),
    s.mem.wf s.config.bufBytes = true → s.answers = answer :: rest → answer ≠ .silent →
    ∃ bytes : List Byte,
      exec .flush s = .next { s with
        answers := rest, held := false, sent := s.sent ++ [bytes]
        responses := s.responses ++ [⟨if answer = .success then 0x00 else 0x01, []⟩] } ∧
      bytes.length = s.config.bufBytes ∧ ∀ o, bytes[o]? = s.mem.read o

/-- R150, R243: a FLUSH whose transport does not answer has handed it the bytes, returns no response, and holds the
block. The list of answers and the hold in the state are the model's choice (logs 4, 5). -/
def Obligations.FlushWithoutAnswerHoldsTheBlock : Prop :=
  ∀ s : State, s.answers.head? = none ∨ s.answers.head? = some .silent →
    exec .flush s = .next { s with answers := s.answers.tail, held := true, sent := s.sent ++ [s.mem.bytes] }

/-- R243: while a FLUSH holds the block, only the transport's answer lifts the hold; the block takes no command, sends
nothing again and keeps its buffer. The list of answers and the hold in the state are the model's choice (logs
4, 5). -/
def Obligations.OnlyTheAnswerLiftsTheHold : Prop :=
  ∀ s : State, s.config.wf = true → s.fault = 0 → s.held = true →
    (∀ rest, s.answers = .success :: rest → step s = .next { s with
      answers := rest, held := false, responses := s.responses ++ [⟨0x00, []⟩] }) ∧
    (∀ rest, s.answers = .failure :: rest → step s = .next { s with
      answers := rest, held := false, responses := s.responses ++ [⟨0x01, []⟩] }) ∧
    (∀ rest, s.answers = .silent :: rest → step s = .next { s with answers := rest }) ∧
    (s.answers = [] → step s = .next s)

/-- R243: a transport that never answers leaves the block held for ever: after any number of steps it is still held,
has returned no further response and has taken no further word. The list of answers and the hold in the state are the
model's choice (logs 4, 5). -/
def Obligations.SilentTransportHoldsForEver : Prop :=
  ∀ (n : Nat) (s : State), s.config.wf = true → s.fault = 0 → s.held = true → (∀ a ∈ s.answers, a = .silent) →
    core.run n s = .next { s with answers := s.answers.drop n }

/-- R208: a step that executes a FLUSH whose transport answers failure responds TRANSPORT_FAIL, leaves the buffer and
FAULT unchanged, and the block goes on accepting commands. The list of answers is the model's choice (log 4). -/
def Obligations.TransportFailureIsNoFault : Prop :=
  ∀ (s : State) (rest : List Word) (answers : List TransportAnswer),
    s.ready → decode s.commands = .command .flush rest → s.answers = .failure :: answers →
    ∃ t, step s = .next t ∧ t.responses = s.responses ++ [⟨0x01, []⟩] ∧ t.mem = s.mem ∧ t.fault = s.fault ∧ t.ready ∧
      t.commands = rest

/-- R151: after a FLUSH that answered TRANSPORT_FAIL, at once or after it held the block for any number of steps, the buffer
is as before it, and a FLUSH from any later state with that buffer sends the same bytes; the block never retries by itself: a
step that sends anything executes a FLUSH command. The list of answers, the hold in the state and the kept responses and
sent bytes are the model's choice (logs 4, 5, 10). -/
def Obligations.FailedFlushCanBeRetried : Prop :=
  (∀ (n : Nat) (s started t : State), exec .flush s = .next started → core.run n started = .next t →
    t.held = false → t.responses = s.responses ++ [⟨0x01, []⟩] →
    t.mem = s.mem ∧ ∃ bytes, t.sent = s.sent ++ [bytes] ∧
      ∀ u : State, u.mem = t.mem → ∃ v, exec .flush u = .next v ∧ v.sent = u.sent ++ [bytes]) ∧
  ∀ s t : State, step s = .next t → t.sent ≠ s.sent →
    s.held = false ∧ ∃ rest, decode s.commands = .command .flush rest

/-! ## The consumer operations (42_consumer_api.md) -/

/-- R160 to R162: RENDER of a finite value on a group that exists, in no more cells than the group has positions, draws
cell p of encode(X, W) at position p. A bit that segment j of position p names and no later segment of it and no later
position below W names is set exactly when the cell lights the segment; the bits no position below W names are kept, and
nothing else changes but the response. -/
def Obligations.RenderDrawsEveryCell : Prop :=
  ∀ (s : State) (g width : Nat) (value : DWord) (tables : List SegmentTable),
    s.config.wf = true → s.mem.wf s.config.bufBytes = true →
    s.config.groups[g]? = some tables → width ≤ tables.length → isNonfinite value = false →
    ∃ m seq, encodeDigits value width = some seq ∧
      exec (.render g width value) s = .next { s with mem := m, responses := s.responses ++ [⟨0x00, []⟩] } ∧
      (∀ (o k p : Nat) (j : Fin 8) (table : SegmentTable) (c : SymbolicDigit),
        tables[p]? = some table → seq[p]? = some c → table[j].names o k = true →
        (∀ j' : Fin 8, j < j' → table[j'].names o k = false) →
        (∀ (q : Nat) (later : SegmentTable), p < q → q < width → tables[q]? = some later →
          ∀ j' : Fin 8, later[j'].names o k = false) →
        m.bit o k = segmentLit s.config.glyph c j) ∧
      (∀ o k, (∀ t ∈ tables.take width, ∀ j : Fin 8, t[j].names o k = false) → m.bit o k = s.mem.bit o k) ∧
      ∀ o, (∀ t ∈ tables.take width, ∀ j : Fin 8, t[j].offset.toNat ≠ o) → m.read o = s.mem.read o

/-- R164: RENDER leaves the buffer that ENCODE followed by SETDIG g, p, seq[p] for p = 0..W−1 leaves; it returns one
response without digits, the SETDIGs return W. -/
def Obligations.RenderIsEncodeThenSetdigs : Prop :=
  ∀ (s : State) (g width : Nat) (value : DWord) (tables : List SegmentTable) (seq : List SymbolicDigit),
    s.fault = 0 → s.config.groups[g]? = some tables → width ≤ tables.length → encodeDigits value width = some seq →
    ∃ m, exec (.render g width value) s = .next { s with mem := m, responses := s.responses ++ [⟨0x00, []⟩] } ∧
      execAll (seq.mapIdx (fun p c => .setdig g p (codeNumber c))) s =
        .next { s with mem := m, responses := s.responses ++ List.replicate width ⟨0x00, []⟩ }

/-- R163: a RENDER that faults, for whatever cause, writes nothing but FAULT, and in a well-formed configuration with the
whole buffer present no offset of its positions can be missing. -/
def Obligations.FaultingRenderWritesNothing : Prop :=
  ∀ (s : State) (g width : Nat) (value : DWord),
    (s.config.groups.length ≤ g ∨ (∃ tables, s.config.groups[g]? = some tables ∧ tables.length < width) ∨
      isNonfinite value = true) →
    (∃ t, exec (.render g width value) s = .next t ∧ t.fault ≠ 0 ∧ t.mem = s.mem ∧ t.sent = s.sent) ∧
    (s.config.wf = true → s.mem.wf s.config.bufBytes = true →
      ∀ tables, s.config.groups[g]? = some tables → ∀ t ∈ tables, ∀ j : Fin 8,
        ∃ b, s.mem.read t[j].offset.toNat = some b)

/-- R165, R167: BAR with a bar and a level that exist sets the thresholds below the level and clears the others, in
increasing order, keeps every bit no threshold names and every byte none addresses, and changes nothing else but the
response. -/
def Obligations.BarFillsTheThresholds : Prop :=
  ∀ (s : State) (b level : Nat) (thresholds : List SegmentAddress),
    s.config.wf = true → s.mem.wf s.config.bufBytes = true →
    s.config.bars[b]? = some thresholds → level ≤ thresholds.length →
    ∃ m, exec (.bar b level) s = .next { s with mem := m, responses := s.responses ++ [⟨0x00, []⟩] } ∧
      (∀ (o k j : Nat) (a : SegmentAddress), thresholds[j]? = some a → a.names o k = true →
        (∀ (j' : Nat) (a' : SegmentAddress), j < j' → thresholds[j']? = some a' → a'.names o k = false) →
        m.bit o k = decide (j < level)) ∧
      (∀ o k, (∀ a ∈ thresholds, a.names o k = false) → m.bit o k = s.mem.bit o k) ∧
      ∀ o, (∀ a ∈ thresholds, a.offset.toNat ≠ o) → m.read o = s.mem.read o

/-- R168: where the thresholds name pairwise disjoint bits, after BAR b, L exactly the thresholds below L are lit, and a
larger level lights every bit a smaller one does. -/
def Obligations.DisjointThresholdsLightUpToTheLevel : Prop :=
  ∀ (s t t' : State) (b level level' : Nat) (thresholds : List SegmentAddress),
    s.config.wf = true → s.mem.wf s.config.bufBytes = true →
    s.config.bars[b]? = some thresholds → level ≤ level' → level' ≤ thresholds.length →
    (thresholds.Pairwise fun a a' => ∀ o k, ¬ (a.names o k = true ∧ a'.names o k = true)) →
    exec (.bar b level) s = .next t → exec (.bar b level') s = .next t' →
    (∀ (j : Nat) (a : SegmentAddress), thresholds[j]? = some a →
      ∀ o k, a.names o k = true → t.mem.bit o k = decide (j < level)) ∧
    ∀ a ∈ thresholds, ∀ o k, a.names o k = true → t.mem.bit o k = true → t'.mem.bit o k = true

/-- R75: the pseudo-instructions do what their names say. CLRBYTE and SETBYTE leave 0x00 and 0xFF in their byte, NOP
changes no byte, BAROFF clears every bit its bar's thresholds name, BLANKDIG every bit its position's segments name; each of
these responds OK. SHOW renders at the group's own number of positions, and responds OK for a finite value. -/
def Obligations.PseudoInstructionsDoWhatTheySay : Prop :=
  ∀ s : State, s.config.wf = true → s.mem.wf s.config.bufBytes = true →
    let done (p : Pseudo) (m : Memory) : Prop :=
      exec (expandPseudo s.config p) s = .next { s with mem := m, responses := s.responses ++ [⟨0x00, []⟩] }
    (∀ off, off < s.config.bufBytes → ∃ m, done (.clrbyte off) m ∧ m.read off = some 0x00) ∧
    (∀ off, off < s.config.bufBytes → ∃ m, done (.setbyte off) m ∧ m.read off = some 0xFF) ∧
    done .nop s.mem ∧
    (∀ b thresholds, s.config.bars[b]? = some thresholds → ∃ m, done (.baroff b) m ∧
      ∀ a ∈ thresholds, ∀ o k, a.names o k = true → m.bit o k = false) ∧
    (∀ (g pos : Nat) (tables : List SegmentTable) (table : SegmentTable), s.config.groups[g]? = some tables →
      tables[pos]? = some table → ∃ m, done (.blankdig g pos) m ∧
        ∀ (j : Fin 8) (o k : Nat), table[j].names o k = true → m.bit o k = false) ∧
    ∀ (g : Nat) (tables : List SegmentTable) (value : DWord), s.config.groups[g]? = some tables →
      expandPseudo s.config (.showValue g value) = .render g tables.length value ∧
      (isNonfinite value = false → ∃ m, done (.showValue g value) m)

/-! ## Assembler text (30_encoding.md section 6) -/

/-- R74: the text of every well-formed command, in the syntax of R74, assembles to the command's own words. That the
words of X stand low half first, and the details of the text, are the model's choice (logs 6, 19). -/
def Obligations.CommandTextAssemblesToItsWords : Prop :=
  ∀ (c : Config) (i : Instr), i.wf = true → assembleLine c (assemblyText i) = some (encode i)

/-- R74: a decimal literal, as an exact num / den, becomes the nearest binary64: no finite magnitude is nearer, and of two
equally near the one with the even fraction is taken. It becomes infinity exactly from the middle between the largest
finite magnitude and 2^1024 on, the family's rule (93_implementation_defined.md K3; log 19). -/
def Obligations.LiteralIsTheNearestBinary64 : Prop :=
  ∀ num den : Nat, 0 < den →
    let v : ℚ := (num : ℚ) / den
    let x : DWord := BitVec.ofNat 64 (nearestImage num den)
    let distance (y : DWord) : ℚ := |v - (magnitudeUnits y : ℚ) / unitsPerOne|
    signBit x = false ∧
    (isNonfinite x = true ↔ (2 ^ 54 - 1) * 2 ^ 970 ≤ v) ∧
    (isNonfinite x = false → ∀ y : DWord, isNonfinite y = false →
      distance x < distance y ∨ magnitudeUnits y = magnitudeUnits x ∨
        (distance x = distance y ∧ fractionBits x % 2 = 0))

/-! ## Reset (70_reset_and_hazards.md) -/

/-- R28, R230, R231: between commands the host's reset sets FAULT to 0, gives every buffer byte the draw it is given,
leaves nothing pending and keeps the configuration; while a FLUSH holds the block there is no reset. That reset is an
operation beside the step is the model's choice (log 11). -/
def Obligations.ResetClearsFaultAndDrawsTheBuffer : Prop :=
  ∀ (s : State) (draw : Nat → Byte),
    (s.held = true → hostReset draw s = none) ∧
    (s.held = false → ∃ t, hostReset draw s = some t ∧ t.config = s.config ∧ t.fault = 0 ∧ t.held = false ∧
      t.responses = [] ∧ ∀ o, t.mem.read o = if o < s.config.bufBytes then some (draw o) else none)
end

