-- ==== Sys2Proof/Laws/Decode.lean ====
section
/-! SUPPORT. The laws of headers: fields as numbers, the fields of a packed header, and a row's mask and match as
conditions on the fields. -/

namespace Sys2Proof

theorem headerField_eq (h : Word) (lo len : Nat) : headerField h lo len = h.toNat / 2 ^ lo % 2 ^ len := by
  simp [headerField, BitVec.extractLsb'_toNat, Nat.shiftRight_eq_div_pow]

theorem toNat_packHeader (op sel high low : Nat) :
    (packHeader op sel high low).toNat =
      op % 2 ^ 4 * 2 ^ 28 + sel % 2 ^ 4 * 2 ^ 24 + high % 2 ^ 8 * 2 ^ 8 + low % 2 ^ 8 := by
  rw [packHeader, BitVec.toNat_ofNat, Nat.mod_eq_of_lt (by omega)]

section PackedFields

variable (op sel high low : Nat)

theorem field_op : headerField (packHeader op sel high low) 28 4 = op % 16 := by
  rw [headerField_eq, toNat_packHeader]; omega

theorem field_sel : headerField (packHeader op sel high low) 24 4 = sel % 16 := by
  rw [headerField_eq, toNat_packHeader]; omega

theorem field_zero : headerField (packHeader op sel high low) 16 8 = 0 := by
  rw [headerField_eq, toNat_packHeader]; omega

theorem field_high : headerField (packHeader op sel high low) 8 8 = high % 256 := by
  rw [headerField_eq, toNat_packHeader]; omega

theorem field_low : headerField (packHeader op sel high low) 0 8 = low % 256 := by
  rw [headerField_eq, toNat_packHeader]; omega

end PackedFields

/-! ## Masks as conditions on the fields -/

theorem append_inj_iff {w v : Nat} {a a' : BitVec w} {b b' : BitVec v} : a ++ b = a' ++ b' ↔ a = a' ∧ b = b' := by
  refine ⟨fun h => ⟨?_, ?_⟩, fun ⟨ha, hb⟩ => ha ▸ hb ▸ rfl⟩
  · simpa [BitVec.extractLsb'_append_eq_left] using congrArg (BitVec.extractLsb' v w) h
  · simpa [BitVec.extractLsb'_append_eq_right] using congrArg (BitVec.extractLsb' 0 v) h

/-- The five fields of a header, most significant first. -/
def headerPieces (h : Word) : BitVec (4 + 4 + 8 + 8 + 8) :=
  h.extractLsb' 28 4 ++ h.extractLsb' 24 4 ++ h.extractLsb' 16 8 ++ h.extractLsb' 8 8 ++ h.extractLsb' 0 8

theorem headerPieces_eq (h : Word) : headerPieces h = h := by
  unfold headerPieces
  rw [BitVec.extractLsb'_append_extractLsb'_eq_extractLsb' (by rfl),
    BitVec.extractLsb'_append_extractLsb'_eq_extractLsb' (by rfl),
    BitVec.extractLsb'_append_extractLsb'_eq_extractLsb' (by rfl),
    BitVec.extractLsb'_append_extractLsb'_eq_extractLsb' (by rfl)]
  exact BitVec.extractLsb'_eq_self

/-- A mask and a match, field by field. -/
theorem and_eq_iff_fields (h : Word) (m1 p1 m2 p2 : BitVec 4) (m3 p3 m4 p4 m5 p5 : BitVec 8) :
    h &&& (m1 ++ m2 ++ m3 ++ m4 ++ m5 : BitVec (4 + 4 + 8 + 8 + 8)) =
        (p1 ++ p2 ++ p3 ++ p4 ++ p5 : BitVec (4 + 4 + 8 + 8 + 8)) ↔
      (h.extractLsb' 28 4 &&& m1 = p1 ∧ h.extractLsb' 24 4 &&& m2 = p2) ∧ h.extractLsb' 16 8 &&& m3 = p3 ∧
        h.extractLsb' 8 8 &&& m4 = p4 ∧ h.extractLsb' 0 8 &&& m5 = p5 := by
  conv_lhs => rw [← headerPieces_eq h]
  unfold headerPieces
  rw [BitVec.and_append, BitVec.and_append, BitVec.and_append, BitVec.and_append, append_inj_iff, append_inj_iff,
    append_inj_iff, append_inj_iff]
  simp only [and_assoc]

theorem and_full_nibble (x : BitVec 4) : x &&& 0xF#4 = x := by simpa using BitVec.and_allOnes (x := x)

theorem and_full_byte (x : Byte) : x &&& 0xFF#8 = x := by simpa using BitVec.and_allOnes (x := x)

theorem and_high_bits (x : Byte) : x &&& 0xE0#8 = 0#8 ↔ x.toNat < 32 := by
  revert x; decide +kernel

/-- A header matches a row exactly when its op is the row's and its reserved fields are zero (30_encoding.md R61 to R66,
R69). -/
theorem selects_iff (o : Opcode) (h : Word) :
    o.selects h = true ↔
      match o with
      | .encode => headerField h 28 4 = 1 ∧ headerField h 24 4 = 0 ∧ headerField h 16 8 = 0 ∧ headerField h 0 8 = 0
      | .render => headerField h 28 4 = 2 ∧ headerField h 16 8 = 0 ∧ headerField h 0 8 = 0
      | .setdig => headerField h 28 4 = 3 ∧ headerField h 16 8 = 0 ∧ headerField h 0 8 < 32
      | .setseg => headerField h 28 4 = 4 ∧ headerField h 24 4 = 0 ∧ headerField h 16 8 = 0
      | .clrseg => headerField h 28 4 = 5 ∧ headerField h 24 4 = 0 ∧ headerField h 16 8 = 0
      | .bar => headerField h 28 4 = 6 ∧ headerField h 16 8 = 0 ∧ headerField h 8 8 = 0
      | .flush => headerField h 28 4 = 7 ∧ headerField h 24 4 = 0 ∧ headerField h 16 8 = 0 ∧ headerField h 8 8 = 0 ∧
          headerField h 0 8 = 0 := by
  have four (n : BitVec 4) : h.extractLsb' 28 4 = n ↔ headerField h 28 4 = n.toNat := BitVec.toNat_inj.symm
  have sel : h.extractLsb' 24 4 = 0#4 ↔ headerField h 24 4 = 0 := BitVec.toNat_inj.symm
  have byte (lo : Nat) : h.extractLsb' lo 8 = 0#8 ↔ headerField h lo 8 = 0 := BitVec.toNat_inj.symm
  have any4 (x : BitVec 4) : (x &&& 0#4 = 0#4) = True := by simp
  have any8 (x : Byte) : (x &&& 0#8 = 0#8) = True := by simp
  simp only [Opcode.selects, beq_iff_eq]
  cases o with
  | encode =>
    refine (and_eq_iff_fields h 0xF#4 1#4 0xF#4 0#4 0xFF#8 0#8 0#8 0#8 0xFF#8 0#8).trans ?_
    rw [and_full_nibble, and_full_nibble, and_full_byte, and_full_byte, any8, four, sel, byte, byte]
    simp
    tauto
  | render =>
    refine (and_eq_iff_fields h 0xF#4 2#4 0#4 0#4 0xFF#8 0#8 0#8 0#8 0xFF#8 0#8).trans ?_
    rw [and_full_nibble, and_full_byte, and_full_byte, any4, any8, four, byte, byte]
    simp
  | setdig =>
    refine (and_eq_iff_fields h 0xF#4 3#4 0#4 0#4 0xFF#8 0#8 0#8 0#8 0xE0#8 0#8).trans ?_
    rw [and_full_nibble, and_full_byte, and_high_bits, any4, any8, four, byte]
    simp [headerField]
  | setseg =>
    refine (and_eq_iff_fields h 0xF#4 4#4 0xF#4 0#4 0xFF#8 0#8 0#8 0#8 0#8 0#8).trans ?_
    rw [and_full_nibble, and_full_nibble, and_full_byte, any8, any8, four, sel, byte]
    simp
    tauto
  | clrseg =>
    refine (and_eq_iff_fields h 0xF#4 5#4 0xF#4 0#4 0xFF#8 0#8 0#8 0#8 0#8 0#8).trans ?_
    rw [and_full_nibble, and_full_nibble, and_full_byte, any8, any8, four, sel, byte]
    simp
    tauto
  | bar =>
    refine (and_eq_iff_fields h 0xF#4 6#4 0#4 0#4 0xFF#8 0#8 0xFF#8 0#8 0#8 0#8).trans ?_
    rw [and_full_nibble, and_full_byte, and_full_byte, any4, any8, four, byte, byte]
    simp
  | flush =>
    refine (and_eq_iff_fields h 0xF#4 7#4 0xF#4 0#4 0xFF#8 0#8 0xFF#8 0#8 0xFF#8 0#8).trans ?_
    rw [and_full_nibble, and_full_nibble, and_full_byte, and_full_byte, and_full_byte, four, sel, byte, byte, byte]
    simp
    tauto

end Sys2Proof
end

