-- ==== Sys2Proof/Laws/Encoder.lean ====
section
/-! SUPPORT. The laws of the Digit Encoder's decimal arithmetic. -/

namespace Sys2Proof.Machine

@[simp] theorem length_decimalDigits (k n : Nat) : (decimalDigits k n).length = k := by
  induction k generalizing n with
  | zero => rfl
  | succ k ih => simp [decimalDigits, ih]

/-- The value spelled by a list of decimal digits. -/
def digitsValue (ds : List (Fin 10)) : Nat := ds.foldl (fun n d => 10 * n + d.val) 0

theorem digitsValue_snoc (ds : List (Fin 10)) (d : Fin 10) : digitsValue (ds ++ [d]) = 10 * digitsValue ds + d.val := by
  simp [digitsValue]

/-- The last k decimal digits of n spell n modulo 10^k. -/
theorem digitsValue_decimalDigits (k n : Nat) : digitsValue (decimalDigits k n) = n % 10 ^ k := by
  induction k generalizing n with
  | zero => simp [decimalDigits, digitsValue, Nat.mod_one]
  | succ k ih =>
    rw [decimalDigits, digitsValue_snoc, ih, Nat.pow_succ', Nat.mod_mul]
    simp only [Fin.val_ofNat]
    omega

/-- Dropping trailing zeros keeps the fraction's value, never lengthens the field, and leaves no trailing zero. -/
theorem dropTrailingZeros_spec (f n : Nat) (h0 : 0 < n) (hn : n < 10 ^ f) :
    (dropTrailingZeros f n).1 * 10 ^ (f - (dropTrailingZeros f n).2) = n ∧
      (dropTrailingZeros f n).2 ≤ f ∧ 0 < (dropTrailingZeros f n).2 ∧ (dropTrailingZeros f n).1 % 10 ≠ 0 ∧
      (dropTrailingZeros f n).1 < 10 ^ (dropTrailingZeros f n).2 := by
  induction f generalizing n with
  | zero => simp at hn; omega
  | succ f ih =>
    by_cases hz : n % 10 = 0
    · simp only [dropTrailingZeros, hz, if_true]
      have hd : n / 10 < 10 ^ f := by rw [Nat.pow_succ] at hn; omega
      obtain ⟨h1, h2, h3, h4, h5⟩ := ih (n / 10) (by omega) hd
      refine ⟨?_, by omega, h3, h4, h5⟩
      rw [Nat.succ_sub h2, Nat.pow_succ, ← Nat.mul_assoc, h1]
      omega
    · simp only [dropTrailingZeros, hz, if_false]
      exact ⟨by simp, by omega, by omega, by simpa using hz, hn⟩

/-! ## The unit of a magnitude -/

theorem unitsPerOne_pos : 0 < unitsPerOne := Nat.two_pow_pos 1074

theorem cast_unitsPerOne : (unitsPerOne : ℚ) = 2 ^ (1074 : ℤ) := by
  rw [unitsPerOne, Nat.cast_pow, Nat.cast_ofNat]
  exact (zpow_natCast 2 1074).symm

end Sys2Proof.Machine
end

