-- ==== Sys2Proof/Laws/State.lean ====
section
/-! SUPPORT. One lemma per field per update of the state, so that no proof unfolds a record update. -/

namespace Sys2Proof.Machine

variable (s : State) (ws : List SegmentWrite) (status : Byte) (digits : List SymbolicDigit) (c : FaultCode)
  (words : List Word)

@[simp] theorem State.write_config : (s.write ws).config = s.config := rfl
@[simp] theorem State.write_mem : (s.write ws).mem = segWrites ws s.mem := rfl
@[simp] theorem State.write_fault : (s.write ws).fault = s.fault := rfl
@[simp] theorem State.write_held : (s.write ws).held = s.held := rfl
@[simp] theorem State.write_commands : (s.write ws).commands = s.commands := rfl
@[simp] theorem State.write_responses : (s.write ws).responses = s.responses := rfl
@[simp] theorem State.write_answers : (s.write ws).answers = s.answers := rfl
@[simp] theorem State.write_sent : (s.write ws).sent = s.sent := rfl

@[simp] theorem State.respond_config : (s.respond status digits).config = s.config := rfl
@[simp] theorem State.respond_mem : (s.respond status digits).mem = s.mem := rfl
@[simp] theorem State.respond_fault : (s.respond status digits).fault = s.fault := rfl
@[simp] theorem State.respond_held : (s.respond status digits).held = s.held := rfl
@[simp] theorem State.respond_commands : (s.respond status digits).commands = s.commands := rfl
@[simp] theorem State.respond_responses :
    (s.respond status digits).responses = s.responses ++ [⟨status, digits⟩] := rfl
@[simp] theorem State.respond_answers : (s.respond status digits).answers = s.answers := rfl
@[simp] theorem State.respond_sent : (s.respond status digits).sent = s.sent := rfl

@[simp] theorem State.withCommands_config : (s.withCommands words).config = s.config := rfl
@[simp] theorem State.withCommands_mem : (s.withCommands words).mem = s.mem := rfl
@[simp] theorem State.withCommands_fault : (s.withCommands words).fault = s.fault := rfl
@[simp] theorem State.withCommands_held : (s.withCommands words).held = s.held := rfl
@[simp] theorem State.withCommands_commands : (s.withCommands words).commands = words := rfl
@[simp] theorem State.withCommands_responses : (s.withCommands words).responses = s.responses := rfl
@[simp] theorem State.withCommands_answers : (s.withCommands words).answers = s.answers := rfl
@[simp] theorem State.withCommands_sent : (s.withCommands words).sent = s.sent := rfl

@[simp] theorem State.enterFault_config : (s.enterFault c).config = s.config := rfl
@[simp] theorem State.enterFault_mem : (s.enterFault c).mem = s.mem := rfl
@[simp] theorem State.enterFault_fault : (s.enterFault c).fault = c.value := rfl
@[simp] theorem State.enterFault_held : (s.enterFault c).held = s.held := rfl
@[simp] theorem State.enterFault_commands : (s.enterFault c).commands = s.commands := rfl
@[simp] theorem State.enterFault_responses :
    (s.enterFault c).responses = s.responses ++ [⟨statusFault c.value, []⟩] := rfl
@[simp] theorem State.enterFault_answers : (s.enterFault c).answers = s.answers := rfl
@[simp] theorem State.enterFault_sent : (s.enterFault c).sent = s.sent := rfl

@[simp] theorem State.handOver_config : s.handOver.config = s.config := rfl
@[simp] theorem State.handOver_mem : s.handOver.mem = s.mem := rfl
@[simp] theorem State.handOver_fault : s.handOver.fault = s.fault := rfl
@[simp] theorem State.handOver_held : s.handOver.held = s.held := rfl
@[simp] theorem State.handOver_commands : s.handOver.commands = s.commands := rfl
@[simp] theorem State.handOver_responses : s.handOver.responses = s.responses := rfl
@[simp] theorem State.handOver_answers : s.handOver.answers = s.answers := rfl
@[simp] theorem State.handOver_sent : s.handOver.sent = s.sent ++ [s.mem.bytes] := rfl

/-- Taking an answer writes the hold, the answers and the responses only. -/
@[simp] theorem State.takeAnswer_config : s.takeAnswer.config = s.config := by
  unfold State.takeAnswer; split <;> rfl
@[simp] theorem State.takeAnswer_mem : s.takeAnswer.mem = s.mem := by
  unfold State.takeAnswer; split <;> rfl
@[simp] theorem State.takeAnswer_fault : s.takeAnswer.fault = s.fault := by
  unfold State.takeAnswer; split <;> rfl
@[simp] theorem State.takeAnswer_commands : s.takeAnswer.commands = s.commands := by
  unfold State.takeAnswer; split <;> rfl
@[simp] theorem State.takeAnswer_sent : s.takeAnswer.sent = s.sent := by
  unfold State.takeAnswer; split <;> rfl

theorem State.takeAnswer_success {rest : List TransportAnswer} (h : s.answers = .success :: rest) :
    s.takeAnswer = { s with
      answers := rest, held := false, responses := s.responses ++ [⟨statusOk, []⟩] } := by
  simp [State.takeAnswer, h, State.respond]

theorem State.takeAnswer_failure {rest : List TransportAnswer} (h : s.answers = .failure :: rest) :
    s.takeAnswer = { s with
      answers := rest, held := false, responses := s.responses ++ [⟨statusTransportFail, []⟩] } := by
  simp [State.takeAnswer, h, State.respond]

theorem State.takeAnswer_silent (h : s.answers.head? = none ∨ s.answers.head? = some .silent) :
    s.takeAnswer = { s with answers := s.answers.tail, held := true } := by
  unfold State.takeAnswer
  split <;> simp_all

/-- Everything taking an answer can do: it ends the FLUSH with one response, or holds the block without one. -/
theorem State.takeAnswer_cases :
    (∃ rest status, (status = statusOk ∨ status = statusTransportFail) ∧
      s.takeAnswer = { s with answers := rest, held := false, responses := s.responses ++ [⟨status, []⟩] }) ∨
    s.takeAnswer = { s with answers := s.answers.tail, held := true } := by
  cases h : s.answers with
  | nil => exact .inr (by rw [State.takeAnswer_silent s (by simp [h]), h])
  | cons a rest =>
    cases a with
    | success => exact .inl ⟨rest, _, .inl rfl, State.takeAnswer_success s h⟩
    | failure => exact .inl ⟨rest, _, .inr rfl, State.takeAnswer_failure s h⟩
    | silent => exact .inr (by rw [State.takeAnswer_silent s (by simp [h]), h])

end Sys2Proof.Machine
end

