-- ==== Sys2Proof/Laws/Memory.lean ====
section
/-! SUPPORT. The laws of the buffer: read after write, the canonical form, and what a list of segment writes does to a byte
and to a bit. -/

namespace Sys2Proof.Machine

/-! ## Reading and modifying -/

theorem Memory.read_modify (m : Memory) (o a : Nat) (f : Byte → Byte) :
    (m.modify o f).read a = if a = o then (m.read a).map f else m.read a := by
  induction m with
  | nil => simp [Memory.modify, Memory.read, Memory.unlisted]
  | cons c m ih =>
    obtain ⟨b, v⟩ := c
    simp only [Memory.modify, List.map_cons] at ih ⊢
    by_cases hb : b = o <;> by_cases ha : b = a <;> simp_all [Memory.read]

@[simp] theorem Memory.keys_modify (m : Memory) (o : Nat) (f : Byte → Byte) :
    (m.modify o f).map Prod.fst = m.map Prod.fst := by
  simp only [Memory.modify, List.map_map]
  exact List.map_congr_left fun c _ => by by_cases h : c.1 = o <;> simp [h]

/-- A segment write reads back as the spec's set or clear of the byte it addresses (41_segment_mapper.md R130). -/
theorem read_segWrite (w : SegmentWrite) (m : Memory) (o : Nat) :
    (segWrite w m).read o =
      if o = w.address.offset.toNat then (m.read o).map (segByte w.address.mask w.on) else m.read o :=
  Memory.read_modify ..

@[simp] theorem keys_segWrites (ws : List SegmentWrite) (m : Memory) :
    (segWrites ws m).map Prod.fst = m.map Prod.fst := by
  induction ws generalizing m with
  | nil => rfl
  | cons w ws ih => exact (ih _).trans (Memory.keys_modify ..)

/-! ## The canonical form -/

theorem Memory.wf_iff {n : Nat} {m : Memory} : m.wf n = true ↔ m.map Prod.fst = List.range n := by
  simp [Memory.wf]

/-- Every modification of a byte keeps the canonical form. -/
theorem Memory.wf_modify {n : Nat} {m : Memory} (h : m.wf n = true) (o : Nat) (f : Byte → Byte) :
    (m.modify o f).wf n = true := by
  rw [Memory.wf_iff] at *; simpa using h

/-- Segment writes keep the canonical form. -/
theorem Memory.wf_segWrites {n : Nat} {m : Memory} (h : m.wf n = true) (ws : List SegmentWrite) :
    (segWrites ws m).wf n = true := by
  rw [Memory.wf_iff] at *; simpa using h

/-- The buffer after power-on has the canonical form. -/
theorem Memory.wf_ofDraw (n : Nat) (draw : Nat → Byte) : (Memory.ofDraw n draw).wf n = true := by
  rw [Memory.wf_iff, Memory.ofDraw, List.map_map]
  exact List.map_id' ..

theorem Memory.read_eq_none {m : Memory} {o : Nat} : m.read o = none ↔ o ∉ m.map Prod.fst := by
  induction m with
  | nil => simp [Memory.read, Memory.unlisted]
  | cons c m ih =>
    by_cases h : c.1 = o
    · simp [Memory.read, h]
    · simp only [Memory.read, h, if_false, ih, List.map_cons, List.mem_cons, not_or]
      exact ⟨fun hm => ⟨fun e => h e.symm, hm⟩, And.right⟩

/-- A buffer in canonical form has every byte below BUF_BYTES and no other. -/
theorem Memory.read_isSome_iff {n : Nat} {m : Memory} (h : m.wf n = true) (o : Nat) :
    (∃ b, m.read o = some b) ↔ o < n := by
  rw [← Option.isSome_iff_exists, ← Option.ne_none_iff_isSome, Ne, Memory.read_eq_none, Memory.wf_iff.1 h]
  simp

theorem Memory.length_bytes {n : Nat} {m : Memory} (h : m.wf n = true) : m.bytes.length = n := by
  have := congrArg List.length (Memory.wf_iff.1 h)
  simpa [Memory.bytes] using this

theorem Memory.getElem?_bytes_of_keys (m : Memory) (a o : Nat)
    (h : m.map Prod.fst = (List.range m.length).map (a + ·)) : m.bytes[o]? = m.read (a + o) := by
  induction m generalizing a o with
  | nil => simp [Memory.bytes, Memory.read, Memory.unlisted]
  | cons c m ih =>
    obtain ⟨b, v⟩ := c
    simp only [List.map_cons, List.length_cons, List.range_succ_eq_map, List.map_map, List.cons.injEq,
      Nat.add_zero] at h
    obtain ⟨rfl, h⟩ := h
    have h' : m.map Prod.fst = (List.range m.length).map (b + 1 + ·) := by
      rw [h]; exact List.map_congr_left fun x _ => by simp; omega
    cases o with
    | zero => simp [Memory.bytes, Memory.read]
    | succ o =>
      have := ih (b + 1) o h'
      simp only [Memory.bytes, List.map_cons, List.getElem?_cons_succ, Memory.read] at this ⊢
      rw [if_neg (by omega), this]
      congr 1
      omega

/-- The bytes of a buffer in canonical form stand in offset order (41_segment_mapper.md R152). -/
theorem Memory.getElem?_bytes {n : Nat} {m : Memory} (h : m.wf n = true) (o : Nat) : m.bytes[o]? = m.read o := by
  have hlen : m.length = n := by simpa [Memory.bytes] using Memory.length_bytes h
  have := Memory.getElem?_bytes_of_keys m 0 o (by rw [Memory.wf_iff.1 h, hlen]; simp)
  simpa using this

theorem Memory.read_ofDraw (n : Nat) (draw : Nat → Byte) (o : Nat) :
    (Memory.ofDraw n draw).read o = if o < n then some (draw o) else none := by
  rw [← Memory.getElem?_bytes (Memory.wf_ofDraw n draw)]
  simp only [Memory.bytes, Memory.ofDraw, List.map_map, List.getElem?_map]
  split <;> simp_all

/-! ## What segment writes do to a byte and to a bit -/

/-- What byte `o` becomes under a list of segment writes. -/
def byteAfter (ws : List SegmentWrite) (o : Nat) (b : Byte) : Byte :=
  ws.foldl (fun b w => if o = w.address.offset.toNat then segByte w.address.mask w.on b else b) b

@[simp] theorem byteAfter_nil (o : Nat) (b : Byte) : byteAfter [] o b = b := rfl

theorem byteAfter_append (ws ws' : List SegmentWrite) (o : Nat) (b : Byte) :
    byteAfter (ws ++ ws') o b = byteAfter ws' o (byteAfter ws o b) := List.foldl_append

theorem segWrites_append (ws ws' : List SegmentWrite) (m : Memory) :
    segWrites (ws ++ ws') m = segWrites ws' (segWrites ws m) := List.foldl_append

/-- Segment writes act on each byte by itself. -/
theorem segWrites_eq_map (ws : List SegmentWrite) (m : Memory) :
    segWrites ws m = m.map (fun c => (c.1, byteAfter ws c.1 c.2)) := by
  induction ws generalizing m with
  | nil => simp [segWrites]
  | cons w ws ih =>
    rw [segWrites, List.foldl_cons, ← segWrites, ih, segWrite, Memory.modify, List.map_map]
    refine List.map_congr_left fun c _ => ?_
    by_cases h : c.1 = w.address.offset.toNat <;> simp [h, byteAfter]

theorem read_segWrites (ws : List SegmentWrite) (m : Memory) (o : Nat) :
    (segWrites ws m).read o = (m.read o).map (byteAfter ws o) := by
  induction ws generalizing m with
  | nil => cases h : m.read o <;> simp [segWrites, h]
  | cons w ws ih =>
    rw [segWrites, List.foldl_cons, ← segWrites, ih, read_segWrite]
    by_cases h : o = w.address.offset.toNat <;> cases m.read o <;> simp [h, byteAfter]

theorem bit_segByte (mask old : Byte) (on : Bool) (k : Nat) :
    (segByte mask on old).getLsbD k = if mask.getLsbD k then on else old.getLsbD k := by
  unfold segByte
  by_cases hk : k < 8
  · cases on <;> cases hm : mask.getLsbD k <;> simp only [Bool.false_eq_true, if_true, if_false, BitVec.getLsbD_or,
      BitVec.getLsbD_and, BitVec.getLsbD_not, hm, hk, decide_true, Bool.and_true, Bool.and_false, Bool.or_true,
      Bool.or_false, Bool.not_true, Bool.not_false]
  · have h1 : mask.getLsbD k = false := BitVec.getLsbD_of_ge _ _ (by omega)
    have h2 : old.getLsbD k = false := BitVec.getLsbD_of_ge _ _ (by omega)
    cases on <;> simp [h1, h2]

/-- The last write that names a bit decides it (41_segment_mapper.md R142). -/
theorem bit_byteAfter (ws : List SegmentWrite) (o k : Nat) (b : Byte) :
    (byteAfter ws o b).getLsbD k =
      ((ws.reverse.find? (fun w => w.address.names o k)).map SegmentWrite.on).getD (b.getLsbD k) := by
  induction ws using List.reverseRecOn generalizing b with
  | nil => rfl
  | append_singleton ws w ih =>
    rw [byteAfter_append, List.reverse_append, List.reverse_singleton, List.singleton_append, List.find?_cons]
    simp only [byteAfter, List.foldl_cons, List.foldl_nil]
    rw [← byteAfter]
    by_cases ho : o = w.address.offset.toNat
    · rw [if_pos ho, bit_segByte, ih]
      cases hm : w.address.mask.getLsbD k <;> simp [SegmentAddress.names, hm, ho]
    · have : w.address.names o k = false := by simp [SegmentAddress.names, Ne.symm ho]
      rw [if_neg ho, this, ih]

/-- A bit no write names keeps its value. -/
theorem bit_byteAfter_of_not_named {ws : List SegmentWrite} {o k : Nat}
    (h : ∀ w ∈ ws, w.address.names o k = false) (b : Byte) : (byteAfter ws o b).getLsbD k = b.getLsbD k := by
  rw [bit_byteAfter, List.find?_eq_none.2 (fun w hw => by simp [h w (List.mem_reverse.1 hw)])]
  rfl

/-- A byte no write addresses keeps its value. -/
theorem byteAfter_of_not_addressed {ws : List SegmentWrite} {o : Nat}
    (h : ∀ w ∈ ws, w.address.offset.toNat ≠ o) (b : Byte) : byteAfter ws o b = b := by
  refine BitVec.eq_of_getLsbD_eq fun k _ => bit_byteAfter_of_not_named (fun w hw => ?_) b
  simp [SegmentAddress.names, h w hw]

/-- A write that names a bit, with no later write that does, decides it. -/
theorem bit_byteAfter_of_last {before after : List SegmentWrite} {w : SegmentWrite} {o k : Nat}
    (hw : w.address.names o k = true) (h : ∀ v ∈ after, v.address.names o k = false) (b : Byte) :
    (byteAfter (before ++ w :: after) o b).getLsbD k = w.on := by
  rw [bit_byteAfter, List.reverse_append, List.reverse_cons, List.append_assoc, List.find?_append,
    List.find?_eq_none.2 (fun v hv => by simp [h v (List.mem_reverse.1 hv)])]
  simp [hw]

theorem bit_segWrites {m : Memory} {o : Nat} {b : Byte} (h : m.read o = some b) (ws : List SegmentWrite) (k : Nat) :
    (segWrites ws m).bit o k = (byteAfter ws o b).getLsbD k := by
  simp [Memory.bit, read_segWrites, h]

theorem bit_segWrites_of_not_named {ws : List SegmentWrite} {o k : Nat}
    (h : ∀ w ∈ ws, w.address.names o k = false) (m : Memory) : (segWrites ws m).bit o k = m.bit o k := by
  cases hr : m.read o with
  | none => simp [Memory.bit, read_segWrites, hr]
  | some b => rw [bit_segWrites hr, bit_byteAfter_of_not_named h, Memory.bit, hr, Option.getD_some]

theorem read_segWrites_of_not_addressed {ws : List SegmentWrite} {o : Nat}
    (h : ∀ w ∈ ws, w.address.offset.toNat ≠ o) (m : Memory) : (segWrites ws m).read o = m.read o := by
  rw [read_segWrites]
  cases m.read o <;> simp [byteAfter_of_not_addressed h]

/-- Set/clear writes done twice are done once, even where they alias (41_segment_mapper.md R138). -/
theorem segWrites_idem (ws : List SegmentWrite) (m : Memory) : segWrites ws (segWrites ws m) = segWrites ws m := by
  simp only [segWrites_eq_map, List.map_map]
  refine List.map_congr_left fun c _ => Prod.ext rfl (BitVec.eq_of_getLsbD_eq fun k _ => ?_)
  simp only [Function.comp, bit_byteAfter]
  cases ws.reverse.find? (fun w => w.address.names c.1 k) <;> rfl

/-- Writes that name no bit in common commute (42_consumer_api.md R169). -/
theorem segWrites_comm {ws ws' : List SegmentWrite} (m : Memory)
    (h : ∀ w ∈ ws, ∀ w' ∈ ws', ∀ o k, ¬ (w.address.names o k = true ∧ w'.address.names o k = true)) :
    segWrites ws (segWrites ws' m) = segWrites ws' (segWrites ws m) := by
  simp only [segWrites_eq_map, List.map_map]
  refine List.map_congr_left fun c _ => Prod.ext rfl (BitVec.eq_of_getLsbD_eq fun k _ => ?_)
  simp only [Function.comp]
  by_cases hn : ∃ w ∈ ws, w.address.names c.1 k = true
  · obtain ⟨w, hw, hwn⟩ := hn
    have h' : ∀ w' ∈ ws', w'.address.names c.1 k = false := fun w' hw' => by
      simpa [hwn] using h w hw w' hw' c.1 k
    rw [bit_byteAfter_of_not_named h', bit_byteAfter ws, bit_byteAfter ws]
    cases hf : ws.reverse.find? (fun w => w.address.names c.1 k) with
    | none => exact absurd hwn (List.find?_eq_none.1 hf w (List.mem_reverse.2 hw))
    | some v => rfl
  · simp only [not_exists, not_and, Bool.not_eq_true] at hn
    rw [bit_byteAfter_of_not_named hn, bit_byteAfter ws', bit_byteAfter ws', bit_byteAfter_of_not_named hn]

end Sys2Proof.Machine
end

