-- ==== Sys2Proof/Laws/Exec.lean ====
section
/-! SUPPORT. What executing a command can do, said once: a storing command is a fault or a list of segment writes that the
configuration and the command decide; ENCODE responds; FLUSH hands over and takes an answer. -/

namespace Sys2Proof.Machine

/-- What a storing command comes to in a configuration: a fault, or its segment writes. -/
def storedWrites (c : Config) : Instr → FaultCode ⊕ List SegmentWrite
  | .encode .. => .inr []
  | .flush => .inr []
  | .setseg off mask => if c.bufBytes ≤ off then .inl .badOffset else .inr [byteWrite off mask true]
  | .clrseg off mask => if c.bufBytes ≤ off then .inl .badOffset else .inr [byteWrite off mask false]
  | .setdig group pos code =>
    match c.groups[group]? with
    | none => .inl .badSelect
    | some tables =>
      match tables[pos]? with
      | none => .inl .badPosition
      | some table =>
        match codeOfNumber code with
        | none => .inl .badCode
        | some d => .inr (applyWrites c.glyph table d)
  | .render group width value =>
    match c.groups[group]? with
    | none => .inl .badSelect
    | some tables =>
      if tables.length < width then .inl .badPosition
      else
        match encodeDigits value width with
        | none => .inl .nonfinite
        | some seq => .inr (sequenceWrites c.glyph tables seq)
  | .bar index level =>
    match c.bars[index]? with
    | none => .inl .badSelect
    | some thresholds =>
      if thresholds.length < level then .inl .badLevel else .inr (barWrites thresholds level)

/-- A storing command either takes its fault or performs its writes and responds OK. -/
theorem exec_storing {i : Instr} (h : i.storing = true) (s : State) :
    exec i s = match storedWrites s.config i with
      | .inl c => raise c s
      | .inr ws => .next ((s.write ws).respond statusOk []) := by
  cases i with
  | encode => cases h
  | flush => cases h
  | setseg off mask =>
    simp only [exec, execSetseg, segCommand, storedWrites]
    by_cases hb : s.config.bufBytes ≤ off <;> simp [hb]
  | clrseg off mask =>
    simp only [exec, execClrseg, segCommand, storedWrites]
    by_cases hb : s.config.bufBytes ≤ off <;> simp [hb]
  | setdig group pos code =>
    simp only [exec, execSetdig, storedWrites, State.group]
    cases s.config.groups[group]? with
    | none => rfl
    | some tables =>
      cases ht : tables[pos]? with
      | none => simp [ht]
      | some table => cases codeOfNumber code <;> simp [ht]
  | render group width value =>
    simp only [exec, execRender, storedWrites, State.group]
    cases s.config.groups[group]? with
    | none => rfl
    | some tables =>
      by_cases hl : tables.length < width
      · simp [hl]
      · cases encodeDigits value width <;> simp [hl]
  | bar index level =>
    simp only [exec, execBar, storedWrites, State.barTable]
    cases s.config.bars[index]? with
    | none => rfl
    | some thresholds => by_cases hl : thresholds.length < level <;> simp [hl]

theorem exec_encode (width : Nat) (value : DWord) (s : State) :
    exec (.encode width value) s = match encodeDigits value width with
      | none => raise .nonfinite s
      | some seq => .next (s.respond statusOk seq) := rfl

theorem exec_flush (s : State) : exec .flush s = .next s.handOver.takeAnswer := rfl

/-- Everything a command can do. -/
theorem exec_cases (i : Instr) (s : State) :
    (∃ c, exec i s = .next (s.enterFault c)) ∨
    (∃ ws, i.storing = true ∧ storedWrites s.config i = .inr ws ∧
      exec i s = .next ((s.write ws).respond statusOk [])) ∨
    (∃ width value seq, i = .encode width value ∧ encodeDigits value width = some seq ∧
      exec i s = .next (s.respond statusOk seq)) ∨
    (i = .flush ∧ exec i s = .next s.handOver.takeAnswer) := by
  by_cases hs : i.storing = true
  · rw [exec_storing hs]
    cases hw : storedWrites s.config i with
    | inl c => exact .inl ⟨c, rfl⟩
    | inr ws => exact .inr (.inl ⟨ws, hs, rfl, rfl⟩)
  · cases i with
    | encode width value =>
      rw [exec_encode]
      cases he : encodeDigits value width with
      | none => exact .inl ⟨_, rfl⟩
      | some seq => exact .inr (.inr (.inl ⟨width, value, seq, rfl, he, rfl⟩))
    | flush => exact .inr (.inr (.inr ⟨rfl, rfl⟩))
    | _ => exact absurd rfl hs

end Sys2Proof.Machine
end

