-- ==== Sys2Proof/Laws/PerInstr.lean ====
section
/-! SUPPORT. Statements made for every instruction, one lemma per constructor. The family EncodedHeader says that the header
the encoder writes matches the instruction's own row, and that the command has the length R60 reads from it. -/

namespace Sys2Proof

/-- The words of a well-formed instruction begin with a header of its row, and number what R60 says. -/
def Laws.EncodedHeader.Statement (i : Instr) : Prop :=
  i.wf = true → ∃ h ws, Sys2Proof.encode i = h :: ws ∧ i.opcode.selects h = true ∧ ws.length + 1 = commandWords h

theorem Laws.EncodedHeader.encode (width : Nat) (value : DWord) :
    Laws.EncodedHeader.Statement (.encode width value) := by
  refine fun _ => ⟨_, _, rfl, ?_, ?_⟩
  · simp [Instr.opcode, selects_iff, field_op, field_sel, field_zero, field_low]
  · simp [operandWords, commandWords, takesOperand, field_op]

theorem Laws.EncodedHeader.render (group width : Nat) (value : DWord) :
    Laws.EncodedHeader.Statement (.render group width value) := by
  refine fun _ => ⟨_, _, rfl, ?_, ?_⟩
  · simp [Instr.opcode, selects_iff, field_op, field_zero, field_low]
  · simp [operandWords, commandWords, takesOperand, field_op]

theorem Laws.EncodedHeader.setdig (group pos code : Nat) :
    Laws.EncodedHeader.Statement (.setdig group pos code) := by
  refine fun h => ⟨_, _, rfl, ?_, ?_⟩
  · simp only [Instr.wf, Bool.and_eq_true, decide_eq_true_eq] at h
    have hc : code % 256 = code := Nat.mod_eq_of_lt (by omega)
    simp [Instr.opcode, selects_iff, field_op, field_zero, field_low, hc, h.2]
  · simp [commandWords, takesOperand, field_op]

theorem Laws.EncodedHeader.setseg (off : Nat) (mask : Byte) : Laws.EncodedHeader.Statement (.setseg off mask) := by
  refine fun _ => ⟨_, _, rfl, ?_, ?_⟩
  · simp [Instr.opcode, selects_iff, field_op, field_sel, field_zero]
  · simp [commandWords, takesOperand, field_op]

theorem Laws.EncodedHeader.clrseg (off : Nat) (mask : Byte) : Laws.EncodedHeader.Statement (.clrseg off mask) := by
  refine fun _ => ⟨_, _, rfl, ?_, ?_⟩
  · simp [Instr.opcode, selects_iff, field_op, field_sel, field_zero]
  · simp [commandWords, takesOperand, field_op]

theorem Laws.EncodedHeader.bar (index level : Nat) : Laws.EncodedHeader.Statement (.bar index level) := by
  refine fun _ => ⟨_, _, rfl, ?_, ?_⟩
  · simp [Instr.opcode, selects_iff, field_op, field_zero, field_high]
  · simp [commandWords, takesOperand, field_op]

theorem Laws.EncodedHeader.flush : Laws.EncodedHeader.Statement .flush := by
  refine fun _ => ⟨_, _, rfl, ?_, ?_⟩
  · simp [Instr.opcode, selects_iff, field_op, field_sel, field_zero, field_high, field_low]
  · simp [commandWords, takesOperand, field_op]

end Sys2Proof
end

