-- ==== Sys2Proof/Laws/Step.lean ====
section
/-! SUPPORT. What a step can do, said once. -/

namespace Sys2Proof.Machine

theorem step_of_ready {s : State} (h : s.ready) :
    step s = match decode s.commands with
      | .command i rest => exec i (s.withCommands rest)
      | .illegal rest => takeIllegal rest s
      | .incomplete => waitForHost s := by
  obtain ⟨hc, hf, hh⟩ := h
  exact (if_pos hc).trans ((if_pos hf).trans (if_neg (Bool.eq_false_iff.1 hh)))

theorem step_of_held {s : State} (hc : s.config.wf = true) (hf : s.fault = 0) (hh : s.held = true) :
    step s = .next s.takeAnswer := by
  simp [step, hc, hf, hh, waitForTransport]

theorem step_of_faulted {s : State} (hc : s.config.wf = true) (hf : s.fault ≠ 0) : step s = .fault .halted := by
  rw [step, if_pos hc, if_neg hf]

theorem step_of_ill_formed {s : State} (hc : s.config.wf = false) : step s = .refused .illFormedConfig := by
  simp [step, hc]

/-- A step that leads to a next state starts in a block whose configuration has a meaning and that is not faulted; it takes
the transport's answer, executes a command, raises ILLEGAL_COMMAND, or waits for the host. -/
theorem step_cases {s t : State} (h : step s = .next t) :
    s.config.wf = true ∧ s.fault = 0 ∧
    ((s.held = true ∧ t = s.takeAnswer) ∨
      s.held = false ∧
        ((∃ i rest, decode s.commands = .command i rest ∧ exec i (s.withCommands rest) = .next t) ∨
          (∃ rest, decode s.commands = .illegal rest ∧ t = (s.withCommands rest).enterFault .illegalCommand) ∨
          (decode s.commands = .incomplete ∧ t = s))) := by
  by_cases hc : s.config.wf = true
  · by_cases hf : s.fault = 0
    · refine ⟨hc, hf, ?_⟩
      cases hh : s.held with
      | true =>
        rw [step_of_held hc hf hh] at h
        exact .inl ⟨rfl, by injection h with h; exact h.symm⟩
      | false =>
        rw [step_of_ready ⟨hc, hf, hh⟩] at h
        refine .inr ⟨rfl, ?_⟩
        cases hd : decode s.commands with
        | command i rest => rw [hd] at h; exact .inl ⟨i, rest, rfl, h⟩
        | illegal rest =>
          rw [hd] at h
          exact .inr (.inl ⟨rest, rfl, by injection h with h; exact h.symm⟩)
        | incomplete => rw [hd] at h; exact .inr (.inr ⟨rfl, by injection h with h; exact h.symm⟩)
    · rw [step_of_faulted hc hf] at h; cases h
  · rw [step_of_ill_formed (by simpa using hc)] at h; cases h

theorem run_succ (n : Nat) (s : State) :
    core.run (n + 1) s = match step s with
      | .next t => core.run n t
      | .fault r => .fault r
      | .refused r => .refused r := by
  have hs : core.step s = step s := rfl
  simp only [Host.Core.run, hs]
  cases step s <;> rfl

/-- What every step preserves is preserved along a run. -/
theorem reaches_induction {P : State → State → Prop} (refl : ∀ s, P s s)
    (trans : ∀ {s t u}, step s = .next t → P t u → P s u) {s t : State} (h : Reaches s t) : P s t := by
  obtain ⟨n, h⟩ := h
  induction n generalizing s with
  | zero => injection h with h; exact h ▸ refl s
  | succ n ih =>
    rw [run_succ] at h
    cases hs : step s with
    | next u => rw [hs] at h; exact trans hs (ih h)
    | fault r => rw [hs] at h; cases h
    | refused r => rw [hs] at h; cases h

end Sys2Proof.Machine
end

