-- ==== Sys2Proof/Tests/Slice0.lean ====
section
/-! SUPPORT. Tests of the model: words written out from the formats of 30_encoding.md, the ill-formed terms WellFormed
refuses, one-step vectors of 95_test_vectors.md, and for every statement with hypotheses a witness that meets them. The
expected values are the spec's. -/

namespace Sys2Proof.Tests

open Sys2Proof Sys2Proof.Machine

/-! ## Helpers -/

/-- A block with the reference configuration, every buffer byte `fill`. -/
def board (fill : Byte) (answers : List TransportAnswer) (commands : List Word) : State :=
  { State.powerOn Config.reference (fun _ => fill) answers with commands := commands }

/-- A board on which a FLUSH waits. -/
def heldBoard (answers : List TransportAnswer) : State := { board 0x5A answers [0x70000000] with held := true }

/-- A part of the next state. -/
def after {α : Type} (f : State → α) : Result → Option α
  | .next t => some (f t)
  | .fault _ => none
  | .refused _ => none

/-- What the host sees of a state: FAULT, and each response with its codes as numbers (30_encoding.md R70). -/
def seen (s : State) : BitVec 4 × List (Byte × List Nat) :=
  (s.fault, s.responses.map (fun r => (r.status, r.digits.map codeNumber)))

/-! ## Decoding -/

/-- R62, E1: op 0001, sel 0000, bits 23:16 zero, W = 6, bits 7:0 zero; X = 1984.0, low half first. -/
theorem test_decode_encode :
    decode [0b0001_0000_00000000_00000110_00000000, 0x00000000, 0x409F0000, 0x70000000] =
      .command (.encode 6 0x409F000000000000) [0x70000000] := by decide

/-- R62, D5: op 0010, g = 1, W = 2; X = 2.5. -/
theorem test_decode_render :
    decode [0b0010_0001_00000000_00000010_00000000, 0x00000000, 0x40040000] =
      .command (.render 1 2 0x4004000000000000) [] := by decide

/-- R63: op 0011, g = 2, pos = 129, bits 7:5 zero, code = 29. -/
theorem test_decode_setdig :
    decode [0b0011_0010_00000000_10000001_000_11101] = .command (.setdig 2 129 29) [] := by decide

/-- R64, B1: op 0100, off = 3, mask = 0xF0. -/
theorem test_decode_setseg : decode [0b0100_0000_00000000_00000011_11110000] = .command (.setseg 3 0xF0) [] := by decide

/-- R64, B6: op 0101, off = 19, mask = 0xFF. -/
theorem test_decode_clrseg : decode [0b0101_0000_00000000_00010011_11111111] = .command (.clrseg 19 0xFF) [] := by decide

/-- R65: op 0110, b = 15, level = 130. -/
theorem test_decode_bar : decode [0b0110_1111_00000000_00000000_10000010] = .command (.bar 15 130) [] := by decide

/-- R66: op 0111, every other bit zero. -/
theorem test_decode_flush : decode [0b0111_0000_00000000_00000000_00000000] = .command .flush [] := by decide

/-- R60: X counts on from bit 32 of the 96 bits (E40). -/
theorem test_decode_table_word :
    decodeTableWord 96 0xC05EDD2F1A9FBE77_10000600 = some (.encode 6 0xC05EDD2F1A9FBE77) := by decide

/-- The bits a row does not number are zero. -/
theorem test_decode_table_word_short :
    decodeTableWord 32 0xFFFFFFFFFFFFFFFF_24000900 = some (.render 4 9 0) := by decide

/-- F1: op 0 is illegal, one word. -/
theorem test_illegal_op0 : decode [0x00000000, 0x70000000] = .illegal [0x70000000] := by decide

/-- F3: a reserved bit of ENCODE; the operand is consumed. -/
theorem test_illegal_encode : decode [0x10010600, 0, 0x3FF00000, 0x70000000] = .illegal [0x70000000] := by decide

/-- F11, F14, F15: reserved bits of SETDIG, BAR and FLUSH. -/
theorem test_illegal_reserved :
    decode [0x30000020] = .illegal [] ∧ decode [0x60000106] = .illegal [] ∧ decode [0x70000001] = .illegal [] := by
  decide

/-- The encoder writes the headers of E1, D5, A12, B1, B6, C4 and D10. -/
theorem test_encode_words :
    encode (.encode 6 0x409F000000000000) = [0x10000600, 0, 0x409F0000] ∧
    encode (.render 1 2 0x4004000000000000) = [0x21000200, 0, 0x40040000] ∧
    encode (.setdig 0 1 30) = [0x3000011E] ∧ encode (.setseg 3 0xF0) = [0x400003F0] ∧
    encode (.clrseg 19 0xFF) = [0x500013FF] ∧ encode (.bar 0 3) = [0x60000003] ∧ encode .flush = [0x70000000] := by
  decide

/-- R74: commands as text, the value in the exact form. -/
theorem test_assembly_text :
    assemblyText (.render 1 2 0x4004000000000000) = "RENDER 1, 2, x:4004000000000000" ∧
    assemblyText (.setseg 19 0x80) = "SETSEG 19, 0x80" ∧ assemblyText .flush = "FLUSH" := by decide +kernel

/-- Lines of P2 and P6 with their words: a negative literal, a comment, a hexadecimal mask. -/
theorem test_assemble_program :
    assemble Config.reference
      ["        RENDER 0, 4, -3.14159   ; 20000400  C00921F9F01B866E", "        BAR    0, 2", "; nothing",
        "        SETSEG 19, 0x80", "        FLUSH"] =
      some [0x20000400, 0xF01B866E, 0xC00921F9, 0x60000002, 0x40001380, 0x70000000] := by decide +kernel

/-- Lines of P4 and P5: a NaN in the exact form, a code by name. -/
theorem test_assemble_lines :
    assembleLine Config.reference "ENCODE 4, x:7FF8000000000000" = some [0x10000400, 0x00000000, 0x7FF80000] ∧
    assembleLine Config.reference "SETDIG 0, 1, BLANK" = some [0x3000011E] ∧
    assembleLine Config.reference "SHOW 1, 2.5" = some [0x21000200, 0x00000000, 0x40040000] ∧
    assembleLine Config.reference "SETDIG 0, 1, 32" = none := by decide +kernel

/-- E32, E33, E34, E52: literals and their images. -/
theorem test_literals :
    readLiteral "-1e-300".toList = some 0x81A56E1FC2F8F359 ∧ readLiteral "5e-324".toList = some 0x0000000000000001 ∧
    readLiteral "1.005".toList = some 0x3FF0147AE147AE14 ∧ readLiteral "1e300".toList = some 0x7E37E43C8800759C := by
  decide +kernel

/-! ## Well-formedness -/

/-- Each operand one above its field. -/
theorem test_instr_wf_refuses :
    (Instr.encode 256 0).wf = false ∧ (Instr.render 16 0 0).wf = false ∧ (Instr.render 0 256 0).wf = false ∧
    (Instr.setdig 16 0 0).wf = false ∧ (Instr.setdig 0 256 0).wf = false ∧ (Instr.setdig 0 0 32).wf = false ∧
    (Instr.setseg 256 0).wf = false ∧ (Instr.clrseg 256 0).wf = false ∧ (Instr.bar 16 0).wf = false ∧
    (Instr.bar 0 256).wf = false := by decide

theorem test_reference_wf : Config.reference.wf = true := by decide

/-- WF_BUF: no byte, or more than 256. -/
theorem test_wfBuf_refuses :
    ({ Config.reference with bufBytes := 0 } : Config).wfBuf = false ∧
    ({ Config.reference with bufBytes := 257 } : Config).wfBuf = false := by decide

/-- WF_GROUPS: no group, 17 groups, or a group of 257 positions. -/
theorem test_wfGroups_refuses :
    ({ Config.reference with groups := [] } : Config).wfGroups = false ∧
    ({ Config.reference with groups := List.replicate 17 [] } : Config).wfGroups = false ∧
    ({ Config.reference with groups := [List.replicate 257 Config.referenceAliasTable] } : Config).wfGroups = false := by
  decide +kernel

/-- WF_BARS: 17 bars, or a bar of 256 thresholds. -/
theorem test_wfBars_refuses :
    ({ Config.reference with bars := List.replicate 17 [] } : Config).wfBars = false ∧
    ({ Config.reference with bars := [List.replicate 256 ⟨0, 0⟩] } : Config).wfBars = false := by decide +kernel

/-- WF_OFFSETS: an entry past the buffer, in a group and in a bar, absent or not. -/
theorem test_wfOffsets_refuses :
    ({ Config.reference with groups := [[Config.referencePointTable 20]] } : Config).wfOffsets = false ∧
    ({ Config.reference with bars := [[⟨0x00, 20⟩]] } : Config).wfOffsets = false := by decide

/-- WF_GLYPH: a pattern of eight bits. -/
theorem test_wfGlyph_refuses :
    ({ Config.reference with glyph := Config.referenceGlyph.set 10 0x80 } : Config).wfGlyph = false := by decide

theorem test_wf_needs_every_check :
    ({ Config.reference with bufBytes := 257 } : Config).wf = false ∧
    ({ Config.reference with groups := [] } : Config).wf = false ∧
    ({ Config.reference with bars := List.replicate 17 [] } : Config).wf = false ∧
    ({ Config.reference with bars := [[⟨0x00, 20⟩]] } : Config).wf = false ∧
    ({ Config.reference with glyph := Config.referenceGlyph.set 10 0x80 } : Config).wf = false := by decide

/-! ## One step -/

/-- E13: the carry adds a digit, and the fraction goes. -/
theorem test_encode_carry :
    after seen (step (board 0 [] [0x10000300, 0xED916873, 0x4023FF7C])) = some (0, [(0x00, [30, 1, 0])]) := by
  decide +kernel

/-- E40: sign, point and rounded fraction. -/
theorem test_encode_signed_fraction :
    after seen (step (board 0 [] [0x10000600, 0x1A9FBE77, 0xC05EDD2F])) = some (0, [(0x00, [10, 1, 2, 23, 4, 6])]) := by
  decide +kernel

/-- D4: three cells of group 0; byte 3 keeps 0xAA. -/
theorem test_render_partial :
    after (fun t => t.mem.bytes.take 5) (step (board 0xAA [] [0x20000300, 0, 0xBFE00000])) =
      some [0x02, 0xFD, 0xB6, 0xAA, 0xAA] := by decide +kernel

/-- D9: BAD_POSITION wins over NONFINITE. -/
theorem test_render_position_before_nonfinite :
    after seen (step (board 0xAA [] [0x20000500, 0, 0x7FF80000])) = some (3, [(0x83, [])]) := by decide

/-- A17: BLANK where the decimal point is absent. -/
theorem test_setdig_blank :
    after (fun t => t.mem.read 4) (step (board 0xFF [] [0x3100001E])) = some (some 0x01) := by decide

/-- A22: the later of two aliasing segments decides. -/
theorem test_setdig_alias :
    after (fun t => t.mem.read 12) (step (board 0x00 [] [0x32000014])) = some (some 0xFD) := by decide

/-- B1. -/
theorem test_setseg : after (fun t => t.mem.read 3) (step (board 0x0F [] [0x400003F0])) = some (some 0xFF) := by decide

/-- B8: BAD_OFFSET even with mask 0. -/
theorem test_setseg_offset : after seen (step (board 0x5A [] [0x40001400])) = some (5, [(0x85, [])]) := by decide

/-- B2. -/
theorem test_clrseg : after (fun t => t.mem.read 3) (step (board 0xFF [] [0x50000381])) = some (some 0x7E) := by decide

/-- B6, the last byte. -/
theorem test_clrseg_last : after (fun t => t.mem.read 19) (step (board 0x5A [] [0x500013FF])) = some (some 0x00) := by
  decide

/-- C4. -/
theorem test_bar : after (fun t => t.mem.read 10) (step (board 0xFF [] [0x60000003])) = some (some 0xE7) := by decide

/-- C7: BAD_LEVEL. -/
theorem test_bar_level : after seen (step (board 0xFF [] [0x60000006])) = some (6, [(0x86, [])]) := by decide

/-- D10. -/
theorem test_flush_success :
    after (fun t => (seen t, t.sent)) (step (board 0x5A [.success] [0x70000000])) =
      some ((0, [(0x00, [])]), [List.replicate 20 0x5A]) := by decide

/-- D11. -/
theorem test_flush_failure :
    after seen (step (board 0x5A [.failure] [0x70000000])) = some (0, [(0x01, [])]) := by decide

/-- F12, F13: BAD_SELECT before BAD_POSITION, ILLEGAL_COMMAND before both. -/
theorem test_fault_order :
    after seen (step (board 0 [] [0x33000400])) = some (2, [(0x82, [])]) ∧
    after seen (step (board 0 [] [0x33000020])) = some (1, [(0x81, [])]) := by decide

/-- The first instruction after reset: SETDIG 0, 0, SIGN (F10). -/
theorem test_reset_runs :
    after (fun t => (t.fault, t.mem.read 0)) (step (State.reset.withFetchWord 32 0x3000000A)) = some (0, some 0x02) := by
  have h : step (State.reset.withFetchWord 32 0x3000000A) = exec (.setdig 0 0 10) State.reset := rfl
  rw [h, exec_storing rfl]
  have hb : State.reset.mem.read 0 = some (Config.powerOnByte 0) := rfl
  have hw : storedWrites State.reset.config (.setdig 0 0 10) =
      .inr (applyWrites Config.referenceGlyph (Config.referencePointTable 0) .sign) := by decide
  rw [hw]
  simp only [after, State.write, State.respond, read_segWrites, hb, Option.map_some]
  have all : ∀ b : Byte, byteAfter (applyWrites Config.referenceGlyph (Config.referencePointTable 0) .sign) 0 b = 0x02 := by
    decide +kernel
  rw [all]
  rfl

/-! ## Witnesses: encoding -/

theorem witness_NoHeaderMatchesTwoRows :
    (0x70000000 : Word) &&& Opcode.flush.mask = Opcode.flush.pattern ∧
    (0x30FF001F : Word) &&& Opcode.setdig.mask ≠ Opcode.setdig.pattern := by decide

/-- Both clauses at each length: one word short, and exactly long enough. -/
theorem witness_CommandLengthIsDecidedByOpAlone :
    decode [0x1FFFFFFF, 0] = .incomplete ∧ decode [0x1FFFFFFF, 0, 0] = .illegal [] ∧
    decode [0x20000000, 0] = .incomplete ∧ decode [0x20000000, 0, 0] = .command (.render 0 0 0) [] ∧
    decode [0xFFFFFFFF] = .illegal [] ∧ decode [0x70000000] = .command .flush [] := by decide

/-- Every operand at the top of its field. -/
theorem witness_DecodeOfEncodeIsTheInstruction :
    (Instr.encode 255 (BitVec.allOnes 64)).wf = true ∧ (Instr.render 15 255 0x8000000000000001).wf = true ∧
    (Instr.setdig 15 255 31).wf = true ∧ (Instr.setseg 255 0xFF).wf = true ∧ (Instr.clrseg 255 0xFF).wf = true ∧
    (Instr.bar 15 255).wf = true ∧ Instr.flush.wf = true := by decide

theorem witness_EncodeOfDecodeIsTheWords :
    decode [0x2F00FF00, 0xFFFFFFFF, 0xFFFFFFFF, 0] = .command (.render 15 255 (BitVec.allOnes 64)) [0] := by decide

/-- Each range at its ends, and the numbers on either side that are no codes. -/
theorem witness_CodesAreTheSourcesNumbers :
    (codeNumber (.digit 0) = 0 ∧ codeNumber .sign = 10 ∧ codeNumber (.digitPoint 0) = 20 ∧ codeNumber .blank = 30) ∧
    (codeOfNumber 11 = none ∧ codeOfNumber 19 = none ∧ codeOfNumber 31 = none) ∧
    hasPoint (.digitPoint 9) = true := by decide

/-- Each clause at the ends of its range. -/
theorem witness_GlyphAndPointAreReadOffTheNumber :
    (codeNumber (.digit 0) ≤ 10 ∧ codeNumber .sign ≤ 10) ∧
    (20 ≤ codeNumber (.digitPoint 0) ∧ codeNumber (.digitPoint 9) ≤ 29) ∧ codeNumber .blank = 30 := by decide

/-! ## Witnesses: the step -/

theorem board_ready (fill : Byte) (answers : List TransportAnswer) (commands : List Word) :
    (board fill answers commands).ready := ⟨test_reference_wf, rfl, rfl⟩

theorem witness_StepExecutesTheDecodedCommand :
    (board 0 [] [0x61000003, 7]).ready ∧ decode (board 0 [] [0x61000003, 7]).commands = .command (.bar 1 3) [7] :=
  ⟨board_ready .., by decide⟩

/-- An illegal header of one word, and one of three. -/
theorem witness_IllegalHeaderRaisesIllegalCommand :
    (board 0 [] [0x80000000]).ready ∧ (board 0 [] [0x10010600, 0, 0]).ready ∧
    commandWords 0x80000000 ≤ 0 + 1 ∧ (∀ o : Opcode, (0x80000000 : Word) &&& o.mask ≠ o.pattern) ∧
    commandWords 0x10010600 ≤ 2 + 1 ∧ (∀ o : Opcode, (0x10010600 : Word) &&& o.mask ≠ o.pattern) :=
  ⟨board_ready .., board_ready .., by decide, fun o => by cases o <;> decide, by decide,
    fun o => by cases o <;> decide⟩

/-- No word, and a command that is not whole. -/
theorem witness_BlockWaitsForTheHost :
    (board 0 [] []).ready ∧ (board 0 [] [0x10000600, 0]).ready ∧ decode [] = .incomplete ∧
    decode [0x10000600, 0] = .incomplete := ⟨board_ready .., board_ready .., by decide, by decide⟩

theorem witness_FaultedBlockTakesNoStep :
    let s : State := { board 0 [.success] [0x70000000] with fault := 1 }
    s.config.wf = true ∧ s.fault ≠ 0 ∧ Reaches s s := ⟨test_reference_wf, by decide, 0, rfl⟩

theorem witness_IllFormedConfigurationIsRefused :
    ({ board 0 [] [] with config := { Config.reference with bufBytes := 0 } } : State).config.wf = false := by decide

/-- A run of two steps that changes the buffer. -/
theorem witness_ConfigurationNeverChanges :
    ∃ t, Reaches (board 0x0F [] [0x400003F0, 0x50000381]) t ∧ t.mem.read 3 = some 0x7E := ⟨_, ⟨2, rfl⟩, by decide⟩

/-- A step that leaves FAULT clear, one that faults on a decoded command, and one on an illegal one. -/
theorem witness_StepWritesFaultOnlyByAFaultingCommand :
    (∃ t, step (board 0 [] [0x400003F0]) = .next t ∧ t.fault = 0) ∧
    (∃ t, step (board 0 [] [0x4000FFF0]) = .next t ∧ t.fault = 5) ∧
    ∃ t, step (board 0 [] [0x00000000]) = .next t ∧ t.fault = 1 :=
  ⟨⟨_, rfl, by decide⟩, ⟨_, rfl, by decide⟩, _, rfl, by decide⟩

theorem witness_BufferChangesOnlyByStoringCommands :
    ∃ t, step (board 0 [] [0x400003F0]) = .next t ∧ t.mem ≠ (board 0 [] [0x400003F0]).mem := ⟨_, rfl, by decide⟩

/-- A waiting FLUSH with a storing command behind it: the buffer stays, the command is not taken. -/
theorem test_wait_keeps_buffer :
    after (fun t => (t.mem.read 3, t.commands)) (step { heldBoard [.success] with commands := [0x400003F0] }) =
      some (some 0x5A, [0x400003F0]) := by decide

theorem board_inv (answers : List TransportAnswer) (commands : List Word) : (board 0x5A answers commands).Inv where
  config := test_reference_wf
  buffer := (by decide : (board 0x5A [] []).mem.wf 20 = true)
  code := Nat.zero_le _
  legal := fun _ h => by cases h
  snapshots := fun _ h => by cases h
  faulted := fun h => absurd rfl h

theorem witness_PowerOnMeetsTheInvariant : Config.reference.wf = true := test_reference_wf

theorem witness_EveryStepKeepsTheInvariant :
    (board 0x5A [.silent] [0x70000000]).Inv ∧ ∃ t, step (board 0x5A [.silent] [0x70000000]) = .next t ∧ t.held = true :=
  ⟨board_inv .., _, rfl, by decide⟩

/-- A fault, a refusal, a next state by a command that is no FLUSH, and one by FLUSH. -/
theorem witness_BufferIsSeenOnlyThroughFlush :
    step { board 0 [] [] with fault := 1 } = .fault .halted ∧
    step { board 0 [] [] with config := { Config.reference with bufBytes := 0 } } = .refused .illFormedConfig ∧
    (∃ t, step (board 0 [] [0x400003F0]) = .next t) ∧
    (∀ rest, decode (board 0 [] [0x400003F0]).commands ≠ .command .flush rest) ∧
    ∃ t, step (board 0 [.success] [0x70000000]) = .next t :=
  ⟨rfl, rfl, ⟨_, rfl⟩, fun rest h => (by cases h), _, rfl⟩

theorem witness_ExecutedCommandReturnsOneResponse :
    (∃ t, exec (.bar 0 3) (board 0 [] []) = .next t) ∧
    ∃ t, exec .flush (board 0 [.silent] []) = .next t ∧ t.held = true := ⟨⟨_, rfl⟩, _, rfl, by decide⟩

/-- RENDER 0, 5, NaN has two causes, the lower BAD_POSITION; SETSEG 19, 0xFF has none. -/
theorem witness_LowestApplicableFaultIsReported :
    let s := board 0 [] []
    let i := Instr.render 0 5 0x7FF8000000000000
    (s.faultCause i .badPosition ∧ s.faultCause i .nonfinite ∧
      ∀ d, s.faultCause i d → FaultCode.badPosition.value ≤ d.value) ∧
    ∀ c, ¬ s.faultCause (.setseg 19 0xFF) c := by
  refine ⟨⟨⟨_, rfl, by decide⟩, (by decide : isNonfinite 0x7FF8000000000000 = true), fun d h => ?_⟩, fun c h => ?_⟩
  · cases d
    case badSelect => exact absurd (show 3 ≤ 0 from h) (by omega)
    case badPosition => decide
    case nonfinite => decide
    all_goals exact False.elim h
  · cases c
    case badOffset => exact absurd (show 20 ≤ 19 from h) (by omega)
    all_goals exact False.elim h

/-- SETDIG 1, 0 addresses byte 4 alone, and names no bit 0 of it. -/
theorem witness_CommandChangesOnlyTheBitsItNames :
    let s := board 0xFF [] []
    (∃ t, exec (.setdig 1 0 2) s = .next t ∧ t.mem ≠ s.mem) ∧
    (∀ a ∈ s.entries (.setdig 1 0 2), a.names 4 0 = false) ∧
    (∀ a ∈ s.entries (.bar 0 1), a.offset.toNat ≠ 4) := by
  refine ⟨⟨_, rfl, by decide⟩, by decide, by decide⟩

/-! ## Witnesses: the Digit Encoder -/

theorem realValue_ten : realValue 0x4024000000000000 = 10 := by
  have h1 : signBit 0x4024000000000000 = false := by decide
  have h2 : biasedExponent 0x4024000000000000 = 1026 := by decide
  have h3 : fractionBits 0x4024000000000000 = 2 ^ 50 := by decide
  rw [realValue, h1, h2, h3]
  norm_num

theorem witness_EncodeReturnsTheSequence : isNonfinite 0xC05EDD2F1A9FBE77 = false := by decide

/-- +∞, −∞ and a NaN. -/
theorem witness_EncodeOfNonfiniteFaults :
    ((0x7FF0000000000000 : DWord).extractLsb' 52 11).toNat = 2047 ∧
    ((0xFFF0000000000000 : DWord).extractLsb' 52 11).toNat = 2047 ∧
    ((0x7FF8000000000000 : DWord).extractLsb' 52 11).toNat = 2047 := by decide

/-- 10.0: in two cells its digits fit, in one they overflow (E44). -/
theorem witness_EncodeShowsTheRoundedValue :
    isNonfinite 0x4024000000000000 = false ∧ digitCount ⌊|realValue 0x4024000000000000|⌋₊ = 2 ∧
    (encodeDigits 0x4024000000000000 2).map (fun s => s.map codeNumber) = some [1, 0] ∧
    (encodeDigits 0x4024000000000000 1).map (fun s => s.map codeNumber) = some [10] := by
  refine ⟨by decide, ?_, by decide +kernel, by decide +kernel⟩
  rw [realValue_ten]
  norm_num
  decide

theorem witness_EncodeOverflowFillsWithSigns :
    isNonfinite 0x4024000000000000 = false ∧
    1 < digitCount ⌊|realValue 0x4024000000000000|⌋₊ + (if realValue 0x4024000000000000 < 0 then 1 else 0) := by
  refine ⟨by decide, ?_⟩
  rw [witness_EncodeShowsTheRoundedValue.2.1]
  omega

/-- A value with sign and point (E40), an overflow (E4), a negative value that rounds to zero (E31), and 10.0, whose two
digits fit two cells and overflow one. -/
theorem witness_EncodeResultHasTheLayout :
    encodeDigits 0xC05EDD2F1A9FBE77 6 =
      some [.sign, .digit 1, .digit 2, .digitPoint 3, .digit 4, .digit 6] ∧
    encodeDigits 0x4132D68700000000 6 = some (List.replicate 6 .sign) ∧
    encodeDigits 0xBF50624DD2F1A9FC 3 = some [.blank, .blank, .digit 0] ∧
    encodeDigits 0x4024000000000000 2 = some [.digit 1, .digit 0] ∧
    encodeDigits 0x4024000000000000 1 = some [.sign] := by decide +kernel

theorem witness_RoundingIsExactHalfUp : roundScaled 5 2 0 = 3 ∧ roundScaled 1 8 2 = 13 ∧ 0 < 8 := by decide

/-! ## Witnesses: the segment mapper -/

/-- The first and the last byte, and the offsets past the buffer. -/
theorem witness_SetsegSetsTheMaskBits :
    let s := board 0x5A [] []
    (0 < s.config.bufBytes ∧ s.mem.read 0 = some 0x5A) ∧ 19 < s.config.bufBytes ∧ s.mem.read 19 = some 0x5A := by decide

theorem witness_ClrsegClearsTheMaskBits :
    let s := board 0xFF [] []
    3 < 256 ∧ 3 < s.config.bufBytes ∧ s.mem.read 3 = some 0xFF := by decide

theorem witness_OffsetOutsideTheBufferFaults :
    (board 0 [] []).config.bufBytes ≤ 20 ∧ (board 0 [] []).config.bufBytes ≤ 255 := by decide

/-- A bit two writes name, and a bit none names. -/
theorem witness_LastWriteDecidesTheBit :
    let m := (board 0x02 [] []).mem
    let ws : List SegmentWrite := [⟨⟨0x01, 12⟩, true⟩, ⟨⟨0x01, 12⟩, false⟩]
    m.read 12 = some 0x02 ∧ (segWrites ws m).bit 12 0 = false ∧ (segWrites ws m).bit 12 1 = true := by decide

/-- A bit that two entries of a position name, and a bit none names. -/
theorem witness_BlankClearsThePosition :
    (∃ j : Fin 8, Config.referenceAliasTable[j].names 12 0 = true) ∧
    ∀ j : Fin 8, Config.referenceAliasTable[j].names 12 1 = false := by decide

/-- An entry 7 that aliases segment 6, and an absent one. -/
theorem witness_DecimalPointFollowsTheFlag :
    (board 0xFF [] []).mem.read 12 = some 0xFF ∧ Config.referenceAliasTable[7].names 12 0 = true ∧
    (Config.referencePlainTable 4)[7].mask = 0 := by decide

/-- The aliasing position of group 2: segment 7 has no later one; segment 6 has; bit 1 is not named; byte 3 not addressed. -/
theorem witness_SetdigDrawsTheCode :
    let s := board 0 [] []
    let t := Config.referenceAliasTable
    (s.config.wf = true ∧ s.mem.wf s.config.bufBytes = true ∧
      (s.config.groups[2]?).bind (fun g => g[0]?) = some t ∧ codeNumber (.digitPoint 0) = 20) ∧
    (t[7].names 12 0 = true ∧ t[0].names 12 7 = true ∧ ∀ j : Fin 8, 0 < j → t[j].names 12 7 = false) ∧
    (∀ j : Fin 8, t[j].names 12 1 = false) ∧ ∀ j : Fin 8, t[j].offset.toNat ≠ 3 := by decide

theorem witness_NumbersThatAreNoCodesFault :
    let s := board 0 [] []
    (s.config.groups[0]?).map List.length = some 4 ∧
    (∀ code ∈ [11, 19, 31], codeOfNumber code = none) ∧
    encodeDigits 0x4024000000000000 2 = some [.digit 1, .digit 0] := by
  refine ⟨by decide, by decide, by decide +kernel⟩

theorem witness_StoringTwiceIsStoringOnce :
    ∃ t u, exec (.setdig 2 0 28) (board 0 [] []) = .next t ∧ exec (.setdig 2 0 28) t = .next u ∧
      t.mem ≠ (board 0 [] []).mem := ⟨_, _, rfl, rfl, by decide⟩

/-- A SegmentAddress names no bit but those of its byte, of index below 8. -/
theorem names_lt {a : SegmentAddress} {o k : Nat} (h : a.names o k = true) : k < 8 := by
  rw [SegmentAddress.names, Bool.and_eq_true] at h
  exact Nat.lt_of_not_le fun hk => Bool.false_ne_true ((BitVec.getLsbD_of_ge _ _ hk).symm.trans h.2)

theorem witness_DisjointUpdatesCommute :
    let s := board 0 [] []
    (∀ a ∈ s.entries (.setseg 3 0xF0), ∀ b ∈ s.entries (.clrseg 3 0x0F), ∀ o k,
      ¬ (a.names o k = true ∧ b.names o k = true)) ∧
    ∃ t u t' u', exec (.setseg 3 0xF0) s = .next t ∧ exec (.clrseg 3 0x0F) t = .next u ∧
      exec (.clrseg 3 0x0F) s = .next t' ∧ exec (.setseg 3 0xF0) t' = .next u' := by
  refine ⟨fun a ha b hb o k h => ?_, _, _, _, _, rfl, rfl, rfl, rfl⟩
  obtain rfl : a = ⟨0xF0, 3⟩ := List.mem_singleton.1 ha
  obtain rfl : b = ⟨0x0F, 3⟩ := List.mem_singleton.1 hb
  have hk := names_lt h.1
  simp only [SegmentAddress.names, Bool.and_eq_true] at h
  have no : ∀ k < 8, ¬ ((0xF0 : Byte).getLsbD k = true ∧ (0x0F : Byte).getLsbD k = true) := by decide
  exact no k hk ⟨h.1.2, h.2.2⟩

theorem witness_FlushSendsTheWholeBuffer :
    let s := board 0x5A [.failure] []
    s.mem.wf s.config.bufBytes = true ∧ s.answers = .failure :: [] ∧ TransportAnswer.failure ≠ .silent ∧
    TransportAnswer.success ≠ .silent := by decide

theorem witness_FlushWithoutAnswerHoldsTheBlock :
    (board 0 [] []).answers.head? = none ∧ (board 0 [.silent, .success] []).answers.head? = some .silent := by decide

/-- Each of the four clauses. -/
theorem witness_OnlyTheAnswerLiftsTheHold :
    ∀ answers ∈ [[.success], [.failure], [.silent, .success], ([] : List TransportAnswer)],
      (heldBoard answers).config.wf = true ∧ (heldBoard answers).fault = 0 ∧ (heldBoard answers).held = true ∧
      (heldBoard answers).answers = answers :=
  fun _ _ => ⟨test_reference_wf, rfl, rfl, rfl⟩

theorem witness_SilentTransportHoldsForEver :
    let s := heldBoard [.silent, .silent]
    s.config.wf = true ∧ s.fault = 0 ∧ s.held = true ∧ ∀ a ∈ s.answers, a = .silent := by decide

theorem witness_TransportFailureIsNoFault :
    let s := board 0x5A [.failure, .success] [0x70000000, 0x70000000]
    s.ready ∧ decode s.commands = .command .flush [0x70000000] ∧ s.answers = .failure :: [.success] :=
  ⟨board_ready .., by decide, rfl⟩

/-- A failure at once, a failure after two silent answers, and a step that sends. -/
theorem witness_FailedFlushCanBeRetried :
    (∃ started t, exec .flush (board 0x5A [.failure] []) = .next started ∧ core.run 0 started = .next t ∧
      t.held = false ∧ t.responses = [] ++ [⟨0x01, []⟩]) ∧
    (∃ started t, exec .flush (board 0x5A [.silent, .silent, .failure] []) = .next started ∧
      core.run 2 started = .next t ∧ t.held = false ∧ t.responses = [] ++ [⟨0x01, []⟩]) ∧
    ∃ t, step (board 0x5A [.failure] [0x70000000]) = .next t ∧ t.sent ≠ [] :=
  ⟨⟨_, _, rfl, rfl, rfl, rfl⟩, ⟨_, _, rfl, rfl, rfl, rfl⟩, _, rfl, by decide⟩

/-! ## Witnesses: the consumer operations -/

/-- RENDER 0, 4: every cell, the last one without a later position; a bit and a byte outside the group. -/
theorem witness_RenderDrawsEveryCell :
    let s := board 0 [] []
    (s.config.wf = true ∧ s.mem.wf s.config.bufBytes = true ∧ (s.config.groups[0]?).map List.length = some 4 ∧
      isNonfinite 0xC00921F9F01B866E = false) ∧
    ((Config.referencePointTable 3)[7].names 3 0 = true ∧
      ∀ q : Fin 8, 7 < q → (Config.referencePointTable 3)[q].names 3 0 = false) ∧
    ∀ t ∈ ((s.config.groups[0]?).getD []).take 4, ∀ j : Fin 8, t[j].names 4 0 = false ∧ t[j].offset.toNat ≠ 4 := by
  decide

/-- D4. -/
theorem witness_RenderIsEncodeThenSetdigs :
    let s := board 0xAA [] []
    s.fault = 0 ∧ (s.config.groups[0]?).map List.length = some 4 ∧ 3 ≤ 4 ∧
    encodeDigits 0xBFE0000000000000 3 = some [.sign, .digitPoint 0, .digit 5] := by
  refine ⟨rfl, by decide, by decide, by decide +kernel⟩

/-- Each of the three causes (D7, D6, D8). -/
theorem witness_FaultingRenderWritesNothing :
    let s := board 0xAA [] []
    s.config.groups.length ≤ 3 ∧ (∃ tables, s.config.groups[0]? = some tables ∧ tables.length < 5) ∧
    isNonfinite 0x7FF0000000000000 = true := ⟨by decide, ⟨_, rfl, by decide⟩, by decide⟩

/-- BAR 0 at its lowest and highest level. -/
theorem witness_BarFillsTheThresholds :
    let s := board 0xFF [] []
    s.config.wf = true ∧ s.mem.wf s.config.bufBytes = true ∧
    ∃ thresholds, s.config.bars[0]? = some thresholds ∧ 0 ≤ thresholds.length ∧ 5 ≤ thresholds.length ∧
      thresholds[4]? = some ⟨0x10, 10⟩ ∧ (∀ a ∈ thresholds, a.names 10 5 = false) ∧
      ∀ a ∈ thresholds, a.offset.toNat ≠ 11 := ⟨by decide, by decide, _, rfl, by decide, by decide, rfl, by decide, by decide⟩

theorem witness_DisjointThresholdsLightUpToTheLevel :
    let s := board 0xFF [] []
    (∃ thresholds, s.config.bars[0]? = some thresholds ∧ 5 ≤ thresholds.length ∧
      (thresholds.Pairwise fun a a' => ∀ o k, ¬ (a.names o k = true ∧ a'.names o k = true))) ∧
    ∃ t t', exec (.bar 0 2) s = .next t ∧ exec (.bar 0 5) s = .next t' := by
  refine ⟨⟨_, rfl, by decide, ?_⟩, _, _, rfl, rfl⟩
  have masks : (([⟨0x01, 10⟩, ⟨0x02, 10⟩, ⟨0x04, 10⟩, ⟨0x08, 10⟩, ⟨0x10, 10⟩] : List SegmentAddress)).Pairwise
      fun a a' => ∀ k < 8, ¬ (a.mask.getLsbD k = true ∧ a'.mask.getLsbD k = true) := by decide
  refine masks.imp fun {a a'} hm o k h => ?_
  have hk := names_lt h.1
  simp only [SegmentAddress.names, Bool.and_eq_true] at h
  exact hm k hk ⟨h.1.2, h.2.2⟩

theorem witness_PseudoInstructionsDoWhatTheySay :
    let s := board 0x5A [] []
    s.config.wf = true ∧ s.mem.wf s.config.bufBytes = true ∧ 19 < s.config.bufBytes ∧
    (∃ thresholds, s.config.bars[0]? = some thresholds) ∧
    (∃ tables table, s.config.groups[2]? = some tables ∧ tables[0]? = some table) ∧
    isNonfinite 0x4004000000000000 = false :=
  ⟨by decide, by decide, by decide, ⟨_, rfl⟩, ⟨_, _, rfl, rfl⟩, by decide⟩

/-! ## Witnesses: assembler text -/

/-- Each command, its operands at the top of their fields. -/
theorem witness_CommandTextAssemblesToItsWords :
    (Instr.render 15 255 (BitVec.allOnes 64)).wf = true ∧
    assembleLine Config.reference (assemblyText (.render 15 255 (BitVec.allOnes 64))) =
      some [0x2F00FF00, 0xFFFFFFFF, 0xFFFFFFFF] := by decide +kernel

/-- A finite magnitude (0.1 of E51), a tie that goes to the even fraction, and a number past the largest finite one. -/
theorem witness_LiteralIsTheNearestBinary64 :
    0 < 10 ∧ nearestImage 1 10 = 0x3FB999999999999A ∧ isNonfinite (BitVec.ofNat 64 (nearestImage 1 10)) = false ∧
    nearestImage (2 ^ 53 + 1) 1 = 0x4340000000000000 ∧
    isNonfinite (BitVec.ofNat 64 (nearestImage (10 ^ 309) 1)) = true := by decide +kernel

/-! ## Witnesses: reset -/

theorem witness_ResetClearsFaultAndDrawsTheBuffer :
    (heldBoard []).held = true ∧ (board 0 [] []).held = false ∧
    (hostReset (fun _ => 0x33) { board 0 [] [] with fault := 7 }).map (fun t => (t.fault, t.mem.read 19)) =
      some (0, some 0x33) := by decide

end Sys2Proof.Tests
end

section
/-! The numbers of the symbolic codes (30_encoding.md R70 to R73): `codeNumber` and `codeOfNumber` are inverse to each
other on the legal codes, and the numbers of the codes are 0..10 and 20..30. -/

namespace Sys2Proof.Machine

/-- R70: every code is read back from its own number. -/
@[simp] theorem codeOfNumber_codeNumber (c : SymbolicDigit) : codeOfNumber (codeNumber c) = some c := by
  cases c with
  | digit d => simp [codeNumber, codeOfNumber]
  | sign => rfl
  | digitPoint d =>
    have not_digit : ¬ d.val + 20 < 10 := by omega
    have not_blank : d.val + 20 < 30 := by omega
    simp [codeNumber, codeOfNumber, not_digit, not_blank]
  | blank => rfl

/-- R71: exactly 11..19 and the numbers from 31 on are no codes. -/
theorem codeOfNumber_eq_none_iff (n : Nat) : codeOfNumber n = none ↔ (11 ≤ n ∧ n ≤ 19) ∨ 31 ≤ n := by
  unfold codeOfNumber
  split_ifs <;> simp <;> omega

theorem codeNumber_of_codeOfNumber {n : Nat} {c : SymbolicDigit} (h : codeOfNumber n = some c) : codeNumber c = n := by
  unfold codeOfNumber at h
  split_ifs at h <;> cases h <;> simp only [codeNumber] <;> omega

/-- R70: the two directions of the numbering are inverse to each other. -/
theorem codeOfNumber_eq_some_iff {n : Nat} {c : SymbolicDigit} : codeOfNumber n = some c ↔ codeNumber c = n :=
  ⟨codeNumber_of_codeOfNumber, fun h => h ▸ codeOfNumber_codeNumber c⟩

/-- R70: the numbers of the codes are 0..10 and 20..30, the complement of R71's. -/
theorem exists_codeNumber_eq_iff (n : Nat) : (∃ c, codeNumber c = n) ↔ n ≤ 10 ∨ (20 ≤ n ∧ n ≤ 30) := by
  have is_code : (∃ c, codeNumber c = n) ↔ codeOfNumber n ≠ none := by
    simp only [Option.ne_none_iff_exists', codeOfNumber_eq_some_iff]
  rw [is_code, ne_eq, codeOfNumber_eq_none_iff]
  omega

/-- R72: only the digits come with a decimal point. -/
theorem hasPoint_eq_true_iff (c : SymbolicDigit) : hasPoint c = true ↔ ∃ d, c = .digitPoint d := by
  cases c <;> simp [hasPoint]

/-- Settles O7: the numbering is inverted by `codeOfNumber`, so each row of R70's table is a code read back from its
number. -/
theorem codesAreTheSourcesNumbers : Obligations.CodesAreTheSourcesNumbers := by
  refine ⟨fun _ _ => codeOfNumber_eq_some_iff, exists_codeNumber_eq_iff, fun d => ⟨?_, ?_⟩, ?_, ?_,
    fun c => (hasPoint_eq_true_iff c).mp⟩
  · exact codeOfNumber_codeNumber (.digit d)
  · exact codeOfNumber_codeNumber (.digitPoint d)
  · exact codeOfNumber_codeNumber .sign
  · exact codeOfNumber_codeNumber .blank

end Sys2Proof.Machine
end

section
/-! The decimal digit count (40_digit_encoder.md R104): on fuel that suffices it is one more than the integer logarithm to
base 10, and so it satisfies the recursion of the spec. -/

namespace Sys2Proof.Machine

/-- The fuel suffices when the number has at most as many binary digits. -/
theorem digitCountFuel_eq_log {fuel n : Nat} (h : n < 2 ^ fuel) : digitCountFuel fuel n = Nat.log 10 n + 1 := by
  induction fuel generalizing n with
  | zero =>
    obtain rfl : n = 0 := by simpa using h
    rfl
  | succ fuel ih =>
    rw [digitCountFuel]
    split
    case isTrue small => rw [Nat.log_of_lt small]
    case isFalse large =>
      have quotient_lt : n / 10 < 2 ^ fuel := by rw [pow_succ] at h; omega
      rw [ih quotient_lt, Nat.log_of_one_lt_of_le (by decide) (not_lt.mp large), Nat.add_comm]

theorem digitCount_eq_log (n : Nat) : digitCount n = Nat.log 10 n + 1 :=
  digitCountFuel_eq_log Nat.lt_log2_self

theorem digitCount_of_lt {n : Nat} (h : n < 10) : digitCount n = 1 := by
  rw [digitCount_eq_log, Nat.log_of_lt h]

theorem digitCount_of_le {n : Nat} (h : 10 ≤ n) : digitCount n = 1 + digitCount (n / 10) := by
  rw [digitCount_eq_log, digitCount_eq_log, Nat.log_of_one_lt_of_le (by decide) h, Nat.add_comm]

/-- Settles O24: the count is the integer logarithm and one, which has both equations of R104. -/
theorem digitCountIsTheDecimalDigitCount : Obligations.DigitCountIsTheDecimalDigitCount :=
  ⟨fun _ h => digitCount_of_lt (Nat.lt_succ_of_le h), fun _ h => digitCount_of_le h⟩

end Sys2Proof.Machine
end

section
/-! ENCODE as one response (40_digit_encoder.md R119): `encodeDigits` of the operand and the width alone decides between the
fault NONFINITE and the sequence. -/

namespace Sys2Proof.Machine

/-- R102: an operand that has no sequence takes the fault. -/
theorem exec_encode_of_none {width : Nat} {value : DWord} (h : encodeDigits value width = none) (s : State) :
    exec (.encode width value) s = .next (s.enterFault .nonfinite) := by
  rw [exec_encode, h]
  rfl

/-- R100: the sequence of the operand is the response. -/
theorem exec_encode_of_some {width : Nat} {value : DWord} {seq : List SymbolicDigit}
    (h : encodeDigits value width = some seq) (s : State) :
    exec (.encode width value) s = .next (s.respond statusOk seq) := by
  rw [exec_encode, h]

/-- Settles O28: both outcomes of `encodeDigits`, which reads no state, add one fixed response; only the fault sets
FAULT. -/
theorem encodeWritesNoState : Obligations.EncodeWritesNoState := by
  intro width value
  cases outcome : encodeDigits value width with
  | none => exact ⟨some .nonfinite, ⟨statusFault FaultCode.nonfinite.value, []⟩, exec_encode_of_none outcome⟩
  | some seq => exact ⟨none, ⟨statusOk, seq⟩, exec_encode_of_some outcome⟩

end Sys2Proof.Machine
end

section
/-! Applying a code to a position (41_segment_mapper.md R135 to R137): `applyWrites` is one write per entry of the table,
in index order, entry j set exactly when `segmentLit` says that the code lights segment j. -/

namespace Sys2Proof.Machine

/-! ## The writes of a code -/

@[simp] theorem length_glyphFlags (glyph : Vector Byte 11) (c : SymbolicDigit) : (glyphFlags glyph c).length = 7 := by
  unfold glyphFlags
  split <;> simp

theorem getElem_glyphFlags (glyph : Vector Byte 11) (c : SymbolicDigit) {i : Nat} (h : i < (glyphFlags glyph c).length) :
    (glyphFlags glyph c)[i] = segmentLit glyph c i := by
  have segment : i ≠ 7 := by rw [length_glyphFlags] at h; omega
  cases index : glyphIndex c <;> simp [glyphFlags, segmentLit, segment, index, -List.reduceReplicate]

/-- The flag of entry 7 is the decimal point's (R137). -/
theorem segmentLit_seven (glyph : Vector Byte 11) (c : SymbolicDigit) : segmentLit glyph c 7 = hasPoint c := rfl

/-- R135: BLANK lights no segment and no decimal point. -/
theorem segmentLit_blank (glyph : Vector Byte 11) (j : Nat) : segmentLit glyph .blank j = false := by
  unfold segmentLit
  split <;> rfl

/-- The writes of a code, entry by entry. -/
theorem applyWrites_eq_ofFn (glyph : Vector Byte 11) (table : SegmentTable) (c : SymbolicDigit) :
    applyWrites glyph table c = List.ofFn fun j : Fin 8 => ⟨table[j], segmentLit glyph c j⟩ := by
  refine List.ext_getElem (by simp [applyWrites]) fun j _ bound => ?_
  rw [List.length_ofFn] at bound
  rw [List.getElem_ofFn]
  obtain segment | rfl : j < 7 ∨ j = 7 := by omega
  · simp [applyWrites, List.getElem_append_left, segment, getElem_glyphFlags]
  · simp [applyWrites, segmentLit_seven]

theorem mem_applyWrites {glyph : Vector Byte 11} {table : SegmentTable} {c : SymbolicDigit} {w : SegmentWrite} :
    w ∈ applyWrites glyph table c ↔ ∃ j : Fin 8, ⟨table[j], segmentLit glyph c j⟩ = w := by
  rw [applyWrites_eq_ofFn, List.mem_ofFn]

/-- The write of the decimal point comes last. -/
theorem applyWrites_eq_take_append (glyph : Vector Byte 11) (table : SegmentTable) (c : SymbolicDigit) :
    applyWrites glyph table c = (applyWrites glyph table c).take 7 ++ [⟨table[7], hasPoint c⟩] := by
  rw [applyWrites_eq_ofFn]
  rfl

/-! ## Writes that clear, and writes of an absent entry -/

/-- A list of writes that only clear clears every bit that one of them names. -/
theorem bit_segWrites_of_all_off {ws : List SegmentWrite} {o k : Nat} (off : ∀ w ∈ ws, w.on = false)
    (named : ∃ w ∈ ws, w.address.names o k = true) (m : Memory) : (segWrites ws m).bit o k = false := by
  cases byte : m.read o with
  | none => simp [Memory.bit, read_segWrites, byte]
  | some b =>
    rw [bit_segWrites byte, bit_byteAfter]
    cases last : ws.reverse.find? (fun w => w.address.names o k) with
    | none =>
      obtain ⟨w, mem, names⟩ := named
      exact absurd names (List.find?_eq_none.1 last w (List.mem_reverse.2 mem))
    | some w => exact off w (List.mem_reverse.1 (List.mem_of_find?_eq_some last))

/-- R132: a write whose mask is 0 changes nothing. -/
theorem segWrite_of_mask_eq_zero {w : SegmentWrite} (h : w.address.mask = 0) (m : Memory) : segWrite w m = m := by
  have same_byte (old : Byte) : segByte w.address.mask w.on old = old := by
    cases on : w.on <;> simp [segByte, h, and_full_byte]
  simp [segWrite, Memory.modify, same_byte]

/-! ## The statements -/

/-- Settles O39: every write of BLANK clears, and the entries it writes are those of the table. -/
theorem blankClearsThePosition : Obligations.BlankClearsThePosition := by
  intro glyph table m o k
  constructor
  · rintro ⟨j, names⟩
    refine bit_segWrites_of_all_off (fun w mem => ?_) ⟨_, mem_applyWrites.2 ⟨j, rfl⟩, names⟩ m
    obtain ⟨i, rfl⟩ := mem_applyWrites.1 mem
    exact segmentLit_blank glyph i
  · intro unnamed
    refine bit_segWrites_of_not_named (fun w mem => ?_) m
    obtain ⟨i, rfl⟩ := mem_applyWrites.1 mem
    exact unnamed i

/-- R73: the codes that carry the decimal point are 20..29. -/
theorem hasPoint_iff_codeNumber (c : SymbolicDigit) : hasPoint c = true ↔ 20 ≤ codeNumber c ∧ codeNumber c ≤ 29 := by
  cases c with
  | digit d => simp [hasPoint, codeNumber]; omega
  | sign => simp [hasPoint, codeNumber]
  | digitPoint d => simp [hasPoint, codeNumber]; omega
  | blank => simp [hasPoint, codeNumber]

/-- Settles O40: the write of entry 7 is the last one, so it decides every bit it names, and an absent one is no write. -/
theorem decimalPointFollowsTheFlag : Obligations.DecimalPointFollowsTheFlag := by
  refine ⟨fun glyph table c m o k old byte names => ?_, hasPoint_iff_codeNumber, fun glyph table c m absent => ?_⟩
  · rw [bit_segWrites byte, applyWrites_eq_take_append]
    exact bit_byteAfter_of_last names (by simp) old
  · conv_lhs => rw [applyWrites_eq_take_append, segWrites_append]
    exact segWrite_of_mask_eq_zero absent _

end Sys2Proof.Machine
end

section
/-! The decoder and the encoder (30_encoding.md R60 to R69): which row a header selects, what the decoder makes of a
whole command, and that the decoder and the encoder are inverse to each other. -/

namespace Sys2Proof

/-! ## Headers and rows -/

/-- R68: a matching header names its row in the op field. -/
theorem opcodeRow_of_selects {o : Opcode} {h : Word} (sel : o.selects h = true) :
    opcodeRow (headerField h 28 4) = some o := by
  cases o <;> simp [selects_iff] at sel <;> simp [sel, opcodeRow]

/-- R69, R76: the decoder knows a header exactly by the row it matches. -/
theorem decodeHeader_eq_some_iff {h : Word} {x : DWord} {i : Instr} :
    decodeHeader h x = some i ↔ ∃ o : Opcode, o.selects h = true ∧ i = o.instr h x := by
  constructor
  · intro known
    unfold decodeHeader at known
    split at known
    case h_1 => cases known
    case h_2 o row =>
      split_ifs at known with sel
      exact ⟨o, sel, by simpa using known.symm⟩
  · rintro ⟨o, sel, rfl⟩
    simp [decodeHeader, opcodeRow_of_selects sel, sel]

theorem decodeHeader_eq_none {h : Word} {x : DWord} (unmatched : ∀ o : Opcode, h &&& o.mask ≠ o.pattern) :
    decodeHeader h x = none := by
  refine Option.eq_none_iff_forall_ne_some.2 fun i known => ?_
  obtain ⟨o, sel, -⟩ := decodeHeader_eq_some_iff.1 known
  exact unmatched o (by simpa [Opcode.selects] using sel)

theorem Opcode.exists_iff {P : Opcode → Prop} :
    (∃ o, P o) ↔ P .encode ∨ P .render ∨ P .setdig ∨ P .setseg ∨ P .clrseg ∨ P .bar ∨ P .flush := by
  constructor
  · rintro ⟨o, h⟩
    cases o <;> simp [h]
  · rintro (h | h | h | h | h | h | h) <;> exact ⟨_, h⟩

theorem extractLsb'_low_byte (h : Word) : h.extractLsb' 0 8 = BitVec.ofNat 8 h.toNat := by
  apply BitVec.eq_of_toNat_eq
  simp [BitVec.extractLsb'_toNat]

/-- Settles O2: two rows that match one header are both the row of its op. -/
theorem noHeaderMatchesTwoRows : Obligations.NoHeaderMatchesTwoRows := by
  intro h a b matchA matchB
  have rowA := opcodeRow_of_selects (o := a) (h := h) (by simpa [Opcode.selects] using matchA)
  have rowB := opcodeRow_of_selects (o := b) (h := h) (by simpa [Opcode.selects] using matchB)
  exact Option.some.inj (rowA.symm.trans rowB)

/-- Settles O1: the row the header matches, spelled out over the seven rows. -/
theorem headerSelectsExactlyTheRowItMatches : Obligations.HeaderSelectsExactlyTheRowItMatches := by
  intro h x i
  rw [decodeHeader_eq_some_iff, Opcode.exists_iff]
  simp [Opcode.selects, Opcode.mask, Opcode.pattern, Opcode.instr, headerField_eq, extractLsb'_low_byte]

/-! ## The words of a command -/

/-- R60: whether X follows is read off H[31:28]. -/
theorem takesOperand_iff (h : Word) : takesOperand h = true ↔ h.toNat / 2 ^ 28 = 1 ∨ h.toNat / 2 ^ 28 = 2 := by
  have op : headerField h 28 4 = h.toNat / 2 ^ 28 := by rw [headerField_eq]; omega
  simp [takesOperand, op]

theorem append_extractLsb'_halves (x : DWord) : (x.extractLsb' 32 32 ++ x.extractLsb' 0 32 : DWord) = x := by
  rw [BitVec.extractLsb'_append_extractLsb'_eq_extractLsb' (by rfl)]
  exact BitVec.extractLsb'_eq_self

/-- Any two words are those of an operand. -/
theorem operandWords_append (lo hi : Word) : operandWords (hi ++ lo) = [lo, hi] := by
  have low : (hi ++ lo : DWord).extractLsb' 0 32 = lo := BitVec.extractLsb'_append_eq_right
  have high : (hi ++ lo : DWord).extractLsb' 32 32 = hi := BitVec.extractLsb'_append_eq_left
  rw [operandWords, low, high]

/-- What the decoder answers for a whole command, by what its header and operand are. -/
def Decoded.ofHeader (known : Option Instr) (rest : List Word) : Decoded :=
  known.elim (.illegal rest) (.command · rest)

theorem Decoded.ofHeader_eq_command_iff {known : Option Instr} {rest rest' : List Word} {i : Instr} :
    Decoded.ofHeader known rest = .command i rest' ↔ known = some i ∧ rest = rest' := by
  cases known <;> simp [Decoded.ofHeader]

theorem decode_of_takesOperand {h : Word} (long : takesOperand h = true) (x : DWord) (rest : List Word) :
    decode (h :: (operandWords x ++ rest)) = .ofHeader (decodeHeader h x) rest := by
  simp only [decode, long, if_true, operandWords, List.cons_append, List.nil_append, append_extractLsb'_halves]
  cases decodeHeader h x <;> rfl

theorem decode_of_not_takesOperand {h : Word} (short : takesOperand h = false) (rest : List Word) :
    decode (h :: rest) = .ofHeader (decodeHeader h 0) rest := by
  simp only [decode, short, Bool.false_eq_true, if_false]
  cases decodeHeader h 0 <;> rfl

/-- R60: the words after a header hold the operand it takes, or are too few. -/
theorem operand_or_incomplete {h : Word} (long : takesOperand h = true) (ws : List Word) :
    (∃ x rest, ws = operandWords x ++ rest) ∨ (ws.length < 2 ∧ decode (h :: ws) = .incomplete) := by
  match ws with
  | [] => exact .inr ⟨by simp, by simp [decode, long]⟩
  | [_] => exact .inr ⟨by simp, by simp [decode, long]⟩
  | lo :: hi :: rest => exact .inl ⟨hi ++ lo, rest, by rw [operandWords_append]; rfl⟩

theorem commandWords_of_takesOperand {h : Word} (long : takesOperand h = true) : commandWords h = 3 := by
  simp [commandWords, long]

theorem commandWords_of_not_takesOperand {h : Word} (short : takesOperand h = false) : commandWords h = 1 := by
  simp [commandWords, short]

/-- R60: a stream that holds less than the command is incomplete. -/
theorem decode_of_length_lt {h : Word} {ws : List Word} (part : ws.length + 1 < commandWords h) :
    decode (h :: ws) = .incomplete := by
  cases op : takesOperand h with
  | false => simp [commandWords_of_not_takesOperand op] at part
  | true =>
    obtain ⟨x, rest, rfl⟩ | ⟨-, wait⟩ := operand_or_incomplete op ws
    · simp [commandWords_of_takesOperand op, operandWords] at part
      omega
    · exact wait

/-- R60, R76: a stream that holds the command is decoded by its header and operand, with the command's words taken. -/
theorem decode_of_le_length {h : Word} {ws : List Word} (whole : commandWords h ≤ ws.length + 1) :
    ∃ x, decode (h :: ws) = .ofHeader (decodeHeader h x) ((h :: ws).drop (commandWords h)) := by
  cases op : takesOperand h with
  | false => exact ⟨0, by rw [decode_of_not_takesOperand op, commandWords_of_not_takesOperand op]; rfl⟩
  | true =>
    rw [commandWords_of_takesOperand op] at whole ⊢
    obtain ⟨x, rest, rfl⟩ | ⟨few, -⟩ := operand_or_incomplete op ws
    · exact ⟨x, decode_of_takesOperand op x rest⟩
    · omega

/-- Settles O3: the two cases of the length, which is read off the op. -/
theorem commandLengthIsDecidedByOpAlone : Obligations.CommandLengthIsDecidedByOpAlone := by
  intro h ws n
  have length : commandWords h = n := by simp only [n, commandWords, takesOperand_iff]
  rw [← length]
  refine ⟨decode_of_length_lt, fun whole => ?_⟩
  obtain ⟨x, decoded⟩ := decode_of_le_length whole
  cases known : decodeHeader h x with
  | none => exact .inr (by rw [decoded, known]; rfl)
  | some i => exact .inl ⟨i, by rw [decoded, known]; rfl⟩

/-! ## The round trips -/

/-- R61 to R66: a header is the packing of its fields when its bits 23:16 are zero. -/
theorem packHeader_eq {h : Word} {op sel high low : Nat} (hop : headerField h 28 4 = op)
    (hsel : headerField h 24 4 = sel) (hzero : headerField h 16 8 = 0) (hhigh : headerField h 8 8 = high)
    (hlow : headerField h 0 8 = low) : packHeader op sel high low = h := by
  apply BitVec.eq_of_toNat_eq
  have bound := h.isLt
  simp only [headerField_eq] at hop hsel hzero hhigh hlow
  rw [toNat_packHeader]
  omega

theorem headerField_lt (h : Word) (lo len : Nat) : headerField h lo len < 2 ^ len :=
  BitVec.isLt _

theorem headerField_low_five {h : Word} (small : headerField h 0 8 < 32) : headerField h 0 5 = headerField h 0 8 := by
  simp only [headerField_eq] at *
  omega

/-- The operands read from a header fit their fields. -/
theorem Opcode.instr_wf (o : Opcode) (h : Word) (x : DWord) : (o.instr h x).wf = true := by
  have four := headerField_lt h 24 4
  have high := headerField_lt h 8 8
  have low := headerField_lt h 0 8
  have code := headerField_lt h 0 5
  cases o <;> simp [Opcode.instr, Instr.wf] <;> omega

/-- The words of what a matching header and an operand stand for are that header and, where it takes one, the
operand's. -/
theorem encode_instr {o : Opcode} {h : Word} (sel : o.selects h = true) (x : DWord) :
    encode (o.instr h x) = h :: if takesOperand h then operandWords x else [] := by
  cases o with
  | encode =>
    obtain ⟨op, four, zero, low⟩ := (selects_iff .encode h).1 sel
    simp [Opcode.instr, encode, takesOperand, op, packHeader_eq op four zero rfl low]
  | render =>
    obtain ⟨op, zero, low⟩ := (selects_iff .render h).1 sel
    simp [Opcode.instr, encode, takesOperand, op, packHeader_eq op rfl zero rfl low]
  | setdig =>
    obtain ⟨op, zero, code⟩ := (selects_iff .setdig h).1 sel
    simp [Opcode.instr, encode, takesOperand, op, headerField_low_five code, packHeader_eq op rfl zero rfl rfl]
  | setseg =>
    obtain ⟨op, four, zero⟩ := (selects_iff .setseg h).1 sel
    simp only [Opcode.instr, encode, ← headerField.eq_1, packHeader_eq op four zero rfl rfl]
    simp [takesOperand, op]
  | clrseg =>
    obtain ⟨op, four, zero⟩ := (selects_iff .clrseg h).1 sel
    simp only [Opcode.instr, encode, ← headerField.eq_1, packHeader_eq op four zero rfl rfl]
    simp [takesOperand, op]
  | bar =>
    obtain ⟨op, zero, high⟩ := (selects_iff .bar h).1 sel
    simp [Opcode.instr, encode, takesOperand, op, packHeader_eq op rfl zero high rfl]
  | flush =>
    obtain ⟨op, four, zero, high, low⟩ := (selects_iff .flush h).1 sel
    simp [Opcode.instr, encode, takesOperand, op, packHeader_eq op four zero high low]

/-- Settles O5: what is decoded is read from a matching header, whose fields pack to the header again. -/
theorem encodeOfDecodeIsTheWords : Obligations.EncodeOfDecodeIsTheWords := by
  intro ws i rest decoded
  cases ws with
  | nil => cases decoded
  | cons h ws =>
    cases op : takesOperand h with
    | false =>
      rw [decode_of_not_takesOperand op, Decoded.ofHeader_eq_command_iff] at decoded
      obtain ⟨known, rfl⟩ := decoded
      obtain ⟨o, sel, rfl⟩ := decodeHeader_eq_some_iff.1 known
      exact ⟨o.instr_wf h 0, by simp [encode_instr sel, op]⟩
    | true =>
      obtain ⟨x, tail, rfl⟩ | ⟨-, wait⟩ := operand_or_incomplete op ws
      · rw [decode_of_takesOperand op, Decoded.ofHeader_eq_command_iff] at decoded
        obtain ⟨known, rfl⟩ := decoded
        obtain ⟨o, sel, rfl⟩ := decodeHeader_eq_some_iff.1 known
        exact ⟨o.instr_wf h x, by simp [encode_instr sel, op]⟩
      · rw [wait] at decoded
        cases decoded

/-- The words of what a matching header and an operand stand for decode to it. -/
theorem decode_encode_instr {o : Opcode} {h : Word} (sel : o.selects h = true) {x : DWord}
    (none : takesOperand h = false → x = 0) (rest : List Word) :
    decode (encode (o.instr h x) ++ rest) = .command (o.instr h x) rest := by
  have known : decodeHeader h x = some (o.instr h x) := decodeHeader_eq_some_iff.2 ⟨o, sel, rfl⟩
  rw [encode_instr sel]
  cases op : takesOperand h with
  | false =>
    obtain rfl := none op
    exact (decode_of_not_takesOperand op rest).trans (by rw [known]; rfl)
  | true => exact (decode_of_takesOperand op x rest).trans (by rw [known]; rfl)

theorem packHeader_low_byte (op sel high : Nat) (low : Byte) :
    (packHeader op sel high low.toNat).extractLsb' 0 8 = low :=
  BitVec.eq_of_toNat_eq ((field_low op sel high low.toNat).trans (Nat.mod_eq_of_lt low.isLt))

theorem packHeader_low_five (op sel high low : Nat) : headerField (packHeader op sel high low) 0 5 = low % 32 := by
  rw [headerField_eq, toNat_packHeader]
  omega

/-- Every well-formed instruction is what its own header (Laws.EncodedHeader) and its operand stand for. -/
theorem exists_eq_instr {i : Instr} (wf : i.wf = true) :
    ∃ (o : Opcode) (h : Word) (x : DWord), o.selects h = true ∧ (takesOperand h = false → x = 0) ∧ i = o.instr h x := by
  cases i with
  | encode width value =>
    obtain ⟨h, ws, words, sel, -⟩ := Laws.EncodedHeader.encode width value wf
    obtain ⟨rfl, -⟩ := List.cons.inj words
    simp only [Instr.wf, decide_eq_true_eq] at wf
    refine ⟨_, _, value, sel, by simp [takesOperand, field_op], ?_⟩
    simp [Instr.opcode, Opcode.instr, field_high, Nat.mod_eq_of_lt wf]
  | render group width value =>
    obtain ⟨h, ws, words, sel, -⟩ := Laws.EncodedHeader.render group width value wf
    obtain ⟨rfl, -⟩ := List.cons.inj words
    simp only [Instr.wf, Bool.and_eq_true, decide_eq_true_eq] at wf
    refine ⟨_, _, value, sel, by simp [takesOperand, field_op], ?_⟩
    simp [Instr.opcode, Opcode.instr, field_sel, field_high, Nat.mod_eq_of_lt, wf]
  | setdig group pos code =>
    obtain ⟨h, ws, words, sel, -⟩ := Laws.EncodedHeader.setdig group pos code wf
    obtain ⟨rfl, -⟩ := List.cons.inj words
    simp only [Instr.wf, Bool.and_eq_true, decide_eq_true_eq] at wf
    refine ⟨_, _, 0, sel, fun _ => rfl, ?_⟩
    simp [Instr.opcode, Opcode.instr, field_sel, field_high, packHeader_low_five, Nat.mod_eq_of_lt, wf]
  | setseg off mask =>
    obtain ⟨h, ws, words, sel, -⟩ := Laws.EncodedHeader.setseg off mask wf
    obtain ⟨rfl, -⟩ := List.cons.inj words
    simp only [Instr.wf, decide_eq_true_eq] at wf
    refine ⟨_, _, 0, sel, fun _ => rfl, ?_⟩
    simp only [Instr.opcode, Opcode.instr, field_high, packHeader_low_byte, Nat.mod_eq_of_lt wf]
  | clrseg off mask =>
    obtain ⟨h, ws, words, sel, -⟩ := Laws.EncodedHeader.clrseg off mask wf
    obtain ⟨rfl, -⟩ := List.cons.inj words
    simp only [Instr.wf, decide_eq_true_eq] at wf
    refine ⟨_, _, 0, sel, fun _ => rfl, ?_⟩
    simp only [Instr.opcode, Opcode.instr, field_high, packHeader_low_byte, Nat.mod_eq_of_lt wf]
  | bar index level =>
    obtain ⟨h, ws, words, sel, -⟩ := Laws.EncodedHeader.bar index level wf
    obtain ⟨rfl, -⟩ := List.cons.inj words
    simp only [Instr.wf, Bool.and_eq_true, decide_eq_true_eq] at wf
    refine ⟨_, _, 0, sel, fun _ => rfl, ?_⟩
    simp [Instr.opcode, Opcode.instr, field_sel, field_low, Nat.mod_eq_of_lt, wf]
  | flush =>
    obtain ⟨h, ws, words, sel, -⟩ := Laws.EncodedHeader.flush wf
    exact ⟨.flush, h, 0, sel, fun _ => rfl, rfl⟩

/-- Settles O4: the instruction is read from its own header and operand, and those words decode to it. -/
theorem decodeOfEncodeIsTheInstruction : Obligations.DecodeOfEncodeIsTheInstruction := by
  intro i rest wf
  obtain ⟨o, h, x, sel, none, rfl⟩ := exists_eq_instr wf
  exact decode_encode_instr sel none rest

/-- Settles O6: the seven words, decoded one by one. -/
theorem writtenOutWordsDecode : Obligations.WrittenOutWordsDecode := by
  unfold Obligations.WrittenOutWordsDecode
  decide

end Sys2Proof
end

section
/-! The Digit Encoder (40_digit_encoder.md): the exact value of the operand, the rounding, the one equation of
`encodeMagnitude` (overflow or layout), and what a layout shows. -/

namespace Sys2Proof.Machine

/-! ## The exact value of the operand (R101, R103) -/

theorem unitsPerOne_cast_pos : (0 : ℚ) < unitsPerOne := Nat.cast_pos.2 unitsPerOne_pos

/-- R101: the value is the magnitude in units of 2^(−1074), with the sign bit's sign. -/
theorem realValue_eq (x : DWord) :
    realValue x = (if signBit x then -1 else 1) * ((magnitudeUnits x : ℚ) / unitsPerOne) := by
  have scale_down (a : ℚ) (e : ℤ) : a * 2 ^ (-e) = a / 2 ^ e := by rw [zpow_neg, div_eq_mul_inv]
  have scale (a : ℚ) (e : ℕ) (u : ℤ) : a * 2 ^ ((e : ℤ) - u) = a * 2 ^ e / 2 ^ u := by
    rw [zpow_sub₀ two_ne_zero, zpow_natCast, mul_div_assoc]
  have cast_normal (f e : ℕ) : (((2 ^ 52 + f) * 2 ^ e : ℕ) : ℚ) = (2 ^ 52 + (f : ℚ)) * 2 ^ e := by push_cast; rfl
  rw [cast_unitsPerOne]
  refine congrArg ((if signBit x then -1 else 1) * ·) ?_
  rw [magnitudeUnits]
  by_cases subnormal : biasedExponent x = 0
  · rw [if_pos subnormal, if_pos subnormal]
    exact scale_down _ 1074
  · obtain ⟨e, he⟩ := Nat.exists_eq_succ_of_ne_zero subnormal
    have split_exponent : ((e.succ : ℕ) : ℤ) - 1075 = (e : ℤ) - 1074 := by push_cast; ring
    rw [if_neg subnormal, if_neg subnormal, he, split_exponent, scale, Nat.succ_sub_one, cast_normal]

theorem abs_signed {q : ℚ} (nonneg : 0 ≤ q) (negative : Bool) : |(if negative then -1 else 1) * q| = q := by
  cases negative <;> simp [abs_of_nonneg nonneg]

theorem signed_lt_zero_iff {q : ℚ} (nonneg : 0 ≤ q) (negative : Bool) :
    (if negative then -1 else 1) * q < 0 ↔ negative = true ∧ q ≠ 0 := by
  cases negative with
  | false => simpa using nonneg
  | true => simp [nonneg.lt_iff_ne, eq_comm]

theorem units_nonneg (n : Nat) : (0 : ℚ) ≤ (n : ℚ) / unitsPerOne :=
  div_nonneg n.cast_nonneg unitsPerOne_cast_pos.le

theorem units_ne_zero_iff (n : Nat) : (n : ℚ) / unitsPerOne ≠ 0 ↔ n ≠ 0 := by
  rw [Ne, div_eq_zero_iff, or_iff_left unitsPerOne_cast_pos.ne', Nat.cast_eq_zero]

theorem abs_realValue (x : DWord) : |realValue x| = (magnitudeUnits x : ℚ) / unitsPerOne := by
  rw [realValue_eq, abs_signed (units_nonneg _)]

/-- R103: negative is strictly below zero, which −0.0 is not. -/
theorem realValue_neg_iff (x : DWord) : realValue x < 0 ↔ isNegative x = true := by
  rw [realValue_eq, signed_lt_zero_iff (units_nonneg _), units_ne_zero_iff, isNegative, Bool.and_eq_true, bne_iff_ne]

/-- Settles O25: the magnitude is the absolute value of the signed quotient, and its sign is strict. -/
theorem operandDenotesItsExactValue : Obligations.OperandDenotesItsExactValue :=
  fun x => ⟨abs_realValue x, (realValue_neg_iff x).symm⟩

/-! ## Rounding (R110) -/

theorem scaled_add_half (num den k : Nat) (pos : 0 < den) :
    (num : ℚ) / den * 10 ^ k + 1 / 2 = ((2 * (num * 10 ^ k) + den : ℕ) : ℚ) / ((2 * den : ℕ) : ℚ) := by
  have den_ne : (den : ℚ) ≠ 0 := Nat.cast_ne_zero.2 pos.ne'
  push_cast
  field_simp

theorem roundScaled_eq_natFloor {den : Nat} (pos : 0 < den) (num k : Nat) :
    roundScaled num den k = ⌊(num : ℚ) / den * 10 ^ k + 1 / 2⌋₊ := by
  rw [scaled_add_half num den k pos, Nat.floor_div_eq_div, roundScaled]

theorem roundScaled_eq_floor {den : Nat} (pos : 0 < den) (num k : Nat) :
    (roundScaled num den k : ℤ) = ⌊(num : ℚ) / den * 10 ^ k + 1 / 2⌋ := by
  rw [roundScaled_eq_natFloor pos, Int.natCast_floor_eq_floor (by positivity)]

/-- Settles O26: both forms are one floor, since the integer part scales to an integer. -/
theorem roundingIsExactHalfUp : Obligations.RoundingIsExactHalfUp := by
  intro num den k pos m
  have whole_apart : m * 10 ^ k + 1 / 2 = ((⌊m⌋ * 10 ^ k : ℤ) : ℚ) + ((m - ⌊m⌋) * 10 ^ k + 1 / 2) := by
    push_cast
    ring
  refine ⟨roundScaled_eq_floor pos num k, ?_⟩
  rw [roundScaled_eq_floor pos num k, whole_apart, Int.floor_intCast_add]

/-- The rounded number lies within the integer part and its successor. -/
theorem roundScaled_bounds {den : Nat} (pos : 0 < den) (num k : Nat) :
    num / den * 10 ^ k ≤ roundScaled num den k ∧ roundScaled num den k ≤ (num / den + 1) * 10 ^ k := by
  have below : den * (num / den) ≤ num := Nat.mul_div_le num den
  have above : num < den * (num / den + 1) := Nat.lt_mul_div_succ num pos
  constructor
  · rw [roundScaled, Nat.le_div_iff_mul_le (by omega)]
    calc num / den * 10 ^ k * (2 * den) = 2 * (den * (num / den) * 10 ^ k) := by ring
      _ ≤ 2 * (num * 10 ^ k) := Nat.mul_le_mul_left _ (Nat.mul_le_mul_right _ below)
      _ ≤ 2 * (num * 10 ^ k) + den := Nat.le_add_right _ _
  · rw [roundScaled, ← Nat.lt_succ_iff, Nat.div_lt_iff_lt_mul (by omega)]
    calc 2 * (num * 10 ^ k) + den < 2 * (den * (num / den + 1) * 10 ^ k) + 2 * den := by
          have := Nat.mul_le_mul_right (10 ^ k) above.le
          omega
      _ = ((num / den + 1) * 10 ^ k).succ * (2 * den) := by rw [Nat.succ_eq_add_one]; ring

theorem roundScaled_div_bounds {den : Nat} (pos : 0 < den) (num k : Nat) :
    num / den ≤ roundScaled num den k / 10 ^ k ∧ roundScaled num den k / 10 ^ k ≤ num / den + 1 := by
  obtain ⟨lower, upper⟩ := roundScaled_bounds pos num k
  have pow_pos : 0 < 10 ^ k := by positivity
  exact ⟨(Nat.le_div_iff_mul_le pow_pos).2 lower, Nat.div_le_of_le_mul (by rwa [Nat.mul_comm])⟩

/-! ## Decimal digits -/

theorem digitCount_pos (n : Nat) : 0 < digitCount n := by rw [digitCount_eq_log]; omega

theorem digitCount_mono {m n : Nat} (h : m ≤ n) : digitCount m ≤ digitCount n := by
  rw [digitCount_eq_log, digitCount_eq_log]
  exact Nat.add_le_add_right (Nat.log_mono_right h) 1

theorem digitCount_succ_le (n : Nat) : digitCount (n + 1) ≤ digitCount n + 1 := by
  have small : n + 1 ≤ 10 ^ digitCount n := by
    rw [digitCount_eq_log]
    exact Nat.lt_pow_succ_log_self (by decide) n
  calc digitCount (n + 1) ≤ digitCount (10 ^ digitCount n) := digitCount_mono small
    _ = digitCount n + 1 := by rw [digitCount_eq_log, Nat.log_pow (by decide)]

theorem lt_ten_pow_digitCount (n : Nat) : n < 10 ^ digitCount n := by
  rw [digitCount_eq_log]
  exact Nat.lt_pow_succ_log_self (by decide) n

theorem decimalDigits_eq_nil_iff {k n : Nat} : decimalDigits k n = [] ↔ k = 0 := by
  rw [← List.length_eq_zero_iff, length_decimalDigits]

/-- A positive number written with its own digit count has no leading zero. -/
theorem head?_decimalDigits_digitCount {n : Nat} (pos : 0 < n) :
    (decimalDigits (digitCount n) n).head? ≠ some 0 := by
  induction n using Nat.strong_induction_on with
  | _ n ih =>
    by_cases small : n < 10
    · have digit : ¬ (Fin.ofNat 10 n = 0) := by simp [Fin.ext_iff]; omega
      simpa [digitCount_of_lt small, decimalDigits] using digit
    · have rest := ih (n / 10) (by omega) (by omega)
      have nonempty : decimalDigits (digitCount (n / 10)) (n / 10) ≠ [] := by
        rw [Ne, decimalDigits_eq_nil_iff]
        exact (digitCount_pos _).ne'
      rw [digitCount_of_le (not_lt.1 small), Nat.add_comm, decimalDigits, List.head?_append_of_ne_nil _ nonempty]
      exact rest

/-- The fraction field keeps the fraction's value, within its cells, without a trailing zero (R112). -/
theorem fractionField_spec {k n : Nat} (h : n < 10 ^ k) :
    (fractionField k n).1 * 10 ^ (k - (fractionField k n).2) = n ∧ (fractionField k n).2 ≤ k ∧
      (fractionField k n).1 < 10 ^ (fractionField k n).2 ∧
      ((fractionField k n).2 ≠ 0 → (fractionField k n).1 % 10 ≠ 0) ∧ ((fractionField k n).2 = 0 ↔ n = 0) := by
  by_cases zero : n = 0
  · simp [fractionField, zero]
  · obtain ⟨value, le, pos, last, lt⟩ := dropTrailingZeros_spec k n (Nat.pos_of_ne_zero zero) h
    rw [fractionField, if_neg zero]
    exact ⟨value, le, lt, fun _ => last, iff_of_false pos.ne' zero⟩

/-! ## Overflow or layout -/

/-- The cells of the integer part and the sign: c of R105. -/
def cellCount (neg : Bool) (num den : Nat) : Nat := digitCount (num / den) + signCells neg

/-- The magnitude rounded to the decimals that `cellCount` leaves (R109, R110). -/
def roundedCells (neg : Bool) (num den width : Nat) : Nat := roundScaled num den (width - cellCount neg num den)

/-- The integer digits and the sign fit the width, before and after rounding (R107, R111). -/
def Fits (neg : Bool) (num den width : Nat) : Prop :=
  cellCount neg num den ≤ width ∧
    digitCount (roundedCells neg num den width / 10 ^ (width - cellCount neg num den)) + signCells neg ≤ width

/-- Rounding adds at most one digit (R111). -/
theorem digitCount_rounded_le {den : Nat} (pos : 0 < den) (num k : Nat) :
    digitCount (num / den) ≤ digitCount (roundScaled num den k / 10 ^ k) ∧
      digitCount (roundScaled num den k / 10 ^ k) ≤ digitCount (num / den) + 1 := by
  obtain ⟨lower, upper⟩ := roundScaled_div_bounds pos num k
  exact ⟨digitCount_mono lower, (digitCount_mono upper).trans (digitCount_succ_le _)⟩

/-- After a carry into a new digit there is no fraction (R111): the integer part has become its successor exactly. -/
theorem rounded_mod_of_carry {den : Nat} (pos : 0 < den) {num k : Nat}
    (carry : digitCount (num / den) < digitCount (roundScaled num den k / 10 ^ k)) :
    roundScaled num den k % 10 ^ k = 0 := by
  have bounds := roundScaled_div_bounds pos num k
  have grown : roundScaled num den k / 10 ^ k ≠ num / den := fun same => by rw [same] at carry; exact carry.ne rfl
  have whole : roundScaled num den k / 10 ^ k = num / den + 1 := by omega
  have upper := (roundScaled_bounds pos num k).2
  have division := Nat.div_add_mod (roundScaled num den k) (10 ^ k)
  rw [whole, Nat.mul_comm] at division
  omega

/-- The encoder fills the width with SIGN where the digits do not fit, before or after rounding (R107, R108, R111). -/
theorem encodeMagnitude_of_not_fits {neg : Bool} {num den width : Nat} (pos : 0 < den)
    (overflow : ¬ Fits neg num den width) : encodeMagnitude neg num den width = overflowCells width := by
  unfold encodeMagnitude
  by_cases wide : width < cellCount neg num den
  · exact if_pos wide
  · have grows := (digitCount_rounded_le pos num (width - cellCount neg num den)).2
    simp only [Fits, roundedCells, cellCount] at overflow wide grows
    refine (if_neg wide).trans (if_pos ?_)
    simp only [Bool.and_eq_true, decide_eq_true_eq]
    omega

/-- Where they fit it lays out the rounded number, its fraction without trailing zeros (R112 to R115). -/
theorem encodeMagnitude_of_fits {neg : Bool} {num den width : Nat} (pos : 0 < den) (fits : Fits neg num den width) :
    let k := width - cellCount neg num den
    let rounded := roundedCells neg num den width
    let field := fractionField k (rounded % 10 ^ k)
    encodeMagnitude neg num den width =
      layout width (neg && rounded != 0) (rounded / 10 ^ k) field.1 field.2 := by
  intro k rounded field
  have narrow : cellCount neg num den ≤ width := fits.1
  have rounded_fits : digitCount (rounded / 10 ^ k) + signCells neg ≤ width := fits.2
  unfold encodeMagnitude
  have shown : ¬ (decide (cellCount neg num den < digitCount (rounded / 10 ^ k) + signCells neg) &&
      decide (width < cellCount neg num den + 1)) = true := by
    simp only [Bool.and_eq_true, decide_eq_true_eq]
    omega
  refine (if_neg (not_lt.2 narrow)).trans ((if_neg shown).trans ?_)
  have field_eq : (if decide (cellCount neg num den < digitCount (rounded / 10 ^ k) + signCells neg) then (0, 0)
      else field) = field := by
    by_cases carry : cellCount neg num den < digitCount (rounded / 10 ^ k) + signCells neg
    · have grown : digitCount (num / den) < digitCount (rounded / 10 ^ k) := Nat.lt_of_add_lt_add_right carry
      have no_fraction : rounded % 10 ^ k = 0 := rounded_mod_of_carry pos grown
      simp [field, carry, no_fraction, fractionField]
    · simp [carry]
  exact congrArg (fun f : Nat × Nat => layout width (neg && rounded != 0) (rounded / 10 ^ k) f.1 f.2) field_eq

/-! ## The cells of a layout -/

/-- Cells in the form of R113 to R115. -/
def numberCells (pad signs : Nat) (ints : List (Fin 10)) (last : Fin 10) (fraction : List (Fin 10)) :
    List SymbolicDigit :=
  List.replicate pad .blank ++ List.replicate signs .sign ++ ints.map .digit
    ++ [if fraction = [] then .digit last else .digitPoint last] ++ fraction.map .digit

theorem layout_eq_numberCells (width : Nat) (neg : Bool) (i fraction fractionCells : Nat) :
    layout width neg i fraction fractionCells =
      numberCells (width - (signCells neg + digitCount i + fractionCells)) (signCells neg)
        (decimalDigits (digitCount i - 1) (i / 10)) (Fin.ofNat 10 i) (decimalDigits fractionCells fraction) := by
  have no_fraction : decimalDigits fractionCells fraction = [] ↔ ¬ 0 < fractionCells := by
    rw [decimalDigits_eq_nil_iff]; omega
  have count := digitCount_pos i
  have length : signCells neg + (digitCount i - 1 + (1 + fractionCells)) =
      signCells neg + digitCount i + fractionCells := by omega
  have sign : (if neg then [SymbolicDigit.sign] else []) = List.replicate (signCells neg) .sign := by cases neg <;> rfl
  simp only [layout, numberCells, integerCells, no_fraction, ite_not, decide_eq_true_eq, sign, List.length_append,
    List.length_map, List.length_replicate, length_decimalDigits, List.length_singleton, List.append_assoc, length]

/-! ## What a layout shows -/

theorem length_numberCells (pad signs : Nat) (ints : List (Fin 10)) (last : Fin 10) (fraction : List (Fin 10)) :
    (numberCells pad signs ints last fraction).length = pad + (signs + ints.length + 1 + fraction.length) := by
  simp [numberCells]
  omega

theorem sign_mem_numberCells {pad signs : Nat} {ints : List (Fin 10)} {last : Fin 10} {fraction : List (Fin 10)} :
    SymbolicDigit.sign ∈ numberCells pad signs ints last fraction ↔ signs ≠ 0 := by
  have last_ne : SymbolicDigit.sign ≠ if fraction = [] then SymbolicDigit.digit last else .digitPoint last := by
    split <;> simp
  simp [numberCells, last_ne]

theorem spelledDigits_numberCells (pad signs : Nat) (ints : List (Fin 10)) (last : Fin 10) (fraction : List (Fin 10)) :
    spelledDigits (numberCells pad signs ints last fraction) = digitsValue (ints ++ [last] ++ fraction) := by
  have digit (ds : List (Fin 10)) : (ds.map SymbolicDigit.digit).filterMap cellDigit = ds.map Fin.val := by
    simp [List.filterMap_map, cellDigit, Function.comp_def]
  have shown : cellDigit (if fraction = [] then SymbolicDigit.digit last else .digitPoint last) = some last.val := by
    split <;> rfl
  have blank : (List.replicate pad SymbolicDigit.blank).filterMap cellDigit = [] := by simp [cellDigit]
  have sign : (List.replicate signs SymbolicDigit.sign).filterMap cellDigit = [] := by simp [cellDigit]
  rw [spelledDigits, numberCells]
  simp [digit, shown, blank, sign, digitsValue, List.foldl_map]

theorem cellsAfterPoint_numberCells (pad signs : Nat) (ints : List (Fin 10)) (last : Fin 10)
    (fraction : List (Fin 10)) : cellsAfterPoint (numberCells pad signs ints last fraction) = fraction.length := by
  have front : ∀ c ∈ List.replicate pad .blank ++ List.replicate signs .sign ++ ints.map SymbolicDigit.digit,
      (!hasPoint c) = true := by
    intro c mem
    simp only [List.mem_append, List.mem_replicate, List.mem_map] at mem
    obtain (⟨-, rfl⟩ | ⟨-, rfl⟩) | ⟨d, -, rfl⟩ := mem <;> rfl
  rw [cellsAfterPoint, numberCells, List.append_assoc, List.dropWhile_append_of_pos front]
  cases fraction <;> simp [List.dropWhile, hasPoint]

theorem digitsValue_append (ds es : List (Fin 10)) :
    digitsValue (ds ++ es) = digitsValue ds * 10 ^ es.length + digitsValue es := by
  induction es using List.reverseRecOn with
  | nil => simp [digitsValue]
  | append_singleton es e ih =>
    rw [← List.append_assoc, digitsValue_snoc, digitsValue_snoc, ih, List.length_append, List.length_singleton,
      pow_succ]
    ring

/-! ## The layout of the encoder -/

theorem digitsValue_integer (i : Nat) :
    digitsValue (decimalDigits (digitCount i - 1) (i / 10) ++ [Fin.ofNat 10 i]) = i := by
  have bound : i / 10 < 10 ^ (digitCount i - 1) := by
    have small := lt_ten_pow_digitCount i
    obtain ⟨d, hd⟩ := Nat.exists_eq_succ_of_ne_zero (digitCount_pos i).ne'
    rw [hd, pow_succ] at small
    rw [hd, Nat.succ_sub_one]
    omega
  rw [digitsValue_snoc, digitsValue_decimalDigits, Nat.mod_eq_of_lt bound]
  simp only [Fin.val_ofNat]
  omega

/-- R115: the integer digits before the last one start with no zero. -/
theorem head?_integer (i : Nat) : (decimalDigits (digitCount i - 1) (i / 10)).head? ≠ some 0 := by
  by_cases small : i < 10
  · simp [digitCount_of_lt small, decimalDigits]
  · rw [digitCount_of_le (not_lt.1 small), Nat.add_sub_cancel_left]
    exact head?_decimalDigits_digitCount (by omega)

theorem eq_zero_iff_integer (i : Nat) :
    i = 0 ↔ decimalDigits (digitCount i - 1) (i / 10) = [] ∧ Fin.ofNat 10 i = 0 := by
  constructor
  · rintro rfl
    exact ⟨rfl, rfl⟩
  · rintro ⟨none, zero⟩
    rw [← digitsValue_integer i, none, zero]
    rfl

/-- R112: a fraction's last digit is not 0 when its field has no trailing zero. -/
theorem getLast?_fraction {f n : Nat} (trailing : f ≠ 0 → n % 10 ≠ 0) : (decimalDigits f n).getLast? ≠ some 0 := by
  cases f with
  | zero => simp [decimalDigits]
  | succ f => simpa [decimalDigits, Fin.ext_iff] using trailing

theorem signCells_and_le (neg shown : Bool) : signCells (neg && shown) ≤ signCells neg := by
  cases neg <;> cases shown <;> decide

/-- The cells of the rounded number, its fraction in `field`'s cells, are within the width (R109, R111, R112). -/
theorem layout_cells_le {neg : Bool} {num den width : Nat} (pos : 0 < den) (fits : Fits neg num den width) :
    let k := width - cellCount neg num den
    let rounded := roundedCells neg num den width
    signCells (neg && rounded != 0) + digitCount (rounded / 10 ^ k) + (fractionField k (rounded % 10 ^ k)).2 ≤
      width := by
  intro k rounded
  have narrow : cellCount neg num den ≤ width := fits.1
  have rounded_fits : digitCount (rounded / 10 ^ k) + signCells neg ≤ width := fits.2
  have sign := signCells_and_le neg (rounded != 0)
  have field := (fractionField_spec (Nat.mod_lt rounded (by positivity : 0 < 10 ^ k))).2.1
  have digits : digitCount (num / den) ≤ digitCount (rounded / 10 ^ k) := (digitCount_rounded_le pos num k).1
  by_cases carry : digitCount (num / den) < digitCount (rounded / 10 ^ k)
  · have no_fraction : rounded % 10 ^ k = 0 := rounded_mod_of_carry pos carry
    simp only [no_fraction, fractionField, if_true]
    omega
  · have count : cellCount neg num den = digitCount (num / den) + signCells neg := rfl
    omega

/-- Where the digits fit, the encoder's cells are those of the rounded number in the form of R113 to R115. -/
theorem encodeMagnitude_eq_numberCells {neg : Bool} {num den width : Nat} (pos : 0 < den)
    (fits : Fits neg num den width) :
    let k := width - cellCount neg num den
    let rounded := roundedCells neg num den width
    ∃ pad ints last fraction,
      encodeMagnitude neg num den width = numberCells pad (signCells (neg && rounded != 0)) ints last fraction ∧
      (encodeMagnitude neg num den width).length = width ∧
      ints.head? ≠ some 0 ∧ fraction.getLast? ≠ some 0 ∧ (rounded = 0 ↔ ints = [] ∧ last = 0 ∧ fraction = []) ∧
      digitsValue (ints ++ [last] ++ fraction) * 10 ^ (k - fraction.length) = rounded ∧ fraction.length ≤ k := by
  intro k rounded
  obtain ⟨value, le, lt, trailing, none⟩ := fractionField_spec (Nat.mod_lt rounded (by positivity : 0 < 10 ^ k))
  have cells := layout_cells_le pos fits
  have whole := Nat.div_add_mod' rounded (10 ^ k)
  have zero : rounded = 0 ↔ rounded / 10 ^ k = 0 ∧ rounded % 10 ^ k = 0 :=
    ⟨fun h => by simp [h], fun ⟨hi, hf⟩ => by rw [← whole, hi, hf]; simp⟩
  refine ⟨_, _, _, _, (encodeMagnitude_of_fits pos fits).trans (layout_eq_numberCells ..), ?_, head?_integer _,
    getLast?_fraction trailing, ?_, ?_, by simpa using le⟩
  · rw [encodeMagnitude_of_fits pos fits, layout_eq_numberCells, length_numberCells]
    have count := digitCount_pos (rounded / 10 ^ k)
    simp only [length_decimalDigits]
    simp only [rounded, k] at cells count
    omega
  · refine (zero.trans (and_congr (eq_zero_iff_integer _) ?_)).trans and_assoc
    exact none.symm.trans decimalDigits_eq_nil_iff.symm
  · rw [digitsValue_append, digitsValue_integer, digitsValue_decimalDigits, Nat.mod_eq_of_lt lt, length_decimalDigits,
      Nat.add_mul, value, Nat.mul_assoc, ← pow_add, Nat.add_sub_cancel' le, whole]

theorem length_encodeMagnitude {den : Nat} (pos : 0 < den) (neg : Bool) (num width : Nat) :
    (encodeMagnitude neg num den width).length = width := by
  by_cases fits : Fits neg num den width
  · obtain ⟨_, _, _, _, _, length, _⟩ := encodeMagnitude_eq_numberCells pos fits
    exact length
  · rw [encodeMagnitude_of_not_fits pos fits]
    exact List.length_replicate

/-! ## encode(X, W) -/

theorem encodeDigits_eq_none_iff {x : DWord} {width : Nat} : encodeDigits x width = none ↔ isNonfinite x = true := by
  cases nonfinite : isNonfinite x <;> simp [encodeDigits, nonfinite]

theorem encodeDigits_of_finite {x : DWord} (finite : isNonfinite x = false) (width : Nat) :
    encodeDigits x width = some (encodeMagnitude (isNegative x) (magnitudeUnits x) unitsPerOne width) :=
  if_neg (by simp [finite])

theorem encodeDigits_eq_some_iff {x : DWord} {width : Nat} {seq : List SymbolicDigit} :
    encodeDigits x width = some seq ↔
      isNonfinite x = false ∧ encodeMagnitude (isNegative x) (magnitudeUnits x) unitsPerOne width = seq := by
  cases finite : isNonfinite x with
  | false => simp only [encodeDigits_of_finite finite, Option.some.injEq, true_and]
  | true => simp [encodeDigits_eq_none_iff.2 finite]

theorem length_of_encodeDigits {x : DWord} {width : Nat} {seq : List SymbolicDigit}
    (h : encodeDigits x width = some seq) : seq.length = width := by
  obtain ⟨-, rfl⟩ := encodeDigits_eq_some_iff.1 h
  exact length_encodeMagnitude unitsPerOne_pos ..

/-! ## The encoder's integers as floors of the exact value -/

theorem decide_realValue_neg (x : DWord) : decide (realValue x < 0) = isNegative x := by
  rw [Bool.eq_iff_iff, decide_eq_true_iff, realValue_neg_iff]

theorem floor_abs_realValue (x : DWord) : ⌊|realValue x|⌋₊ = magnitudeUnits x / unitsPerOne := by
  rw [abs_realValue, Nat.floor_div_eq_div]

theorem floor_rounded_realValue (x : DWord) (k : Nat) :
    ⌊|realValue x| * 10 ^ k + 1 / 2⌋₊ = roundScaled (magnitudeUnits x) unitsPerOne k := by
  rw [abs_realValue, roundScaled_eq_natFloor unitsPerOne_pos]

/-! ## The statements -/

/-- Settles O27: the sequence is `encodeMagnitude`, whose layout and overflow both have the width's cells. -/
theorem encodeReturnsTheSequence : Obligations.EncodeReturnsTheSequence := by
  intro width value finite
  have encoded := encodeDigits_of_finite finite width
  exact ⟨_, length_of_encodeDigits encoded, encoded, exec_encode_of_some encoded⟩

/-- Settles O29: the encoder has no sequence for e = 2047. -/
theorem encodeOfNonfiniteFaults : Obligations.EncodeOfNonfiniteFaults := by
  intro s width value exponent
  have nonfinite : isNonfinite value = true := beq_iff_eq.2 exponent
  exact exec_encode_of_none (encodeDigits_eq_none_iff.2 nonfinite) s

/-- R103 to R115: the number shown is the rounded one, with the sign of the value. -/
theorem shownNumber_encodeMagnitude {neg : Bool} {num den width : Nat} (pos : 0 < den) (fits : Fits neg num den width) :
    shownNumber (encodeMagnitude neg num den width) =
      (if neg then -1 else 1) * (roundedCells neg num den width : ℚ) / 10 ^ (width - cellCount neg num den) := by
  obtain ⟨pad, ints, last, fraction, cells, -, -, -, -, value, le⟩ := encodeMagnitude_eq_numberCells pos fits
  have sign : SymbolicDigit.sign ∈ encodeMagnitude neg num den width ↔
      neg = true ∧ roundedCells neg num den width ≠ 0 := by
    rw [cells, sign_mem_numberCells]
    cases neg <;> simp [signCells]
  have scaled : (roundedCells neg num den width : ℚ) / 10 ^ (width - cellCount neg num den) =
      (digitsValue (ints ++ [last] ++ fraction) : ℚ) / 10 ^ fraction.length := by
    rw [← value, ← Nat.sub_add_cancel le, pow_add, Nat.add_sub_cancel]
    push_cast
    field_simp
  have spelled : spelledDigits (encodeMagnitude neg num den width) = digitsValue (ints ++ [last] ++ fraction) := by
    rw [cells, spelledDigits_numberCells]
  have decimals : cellsAfterPoint (encodeMagnitude neg num den width) = fraction.length := by
    rw [cells, cellsAfterPoint_numberCells]
  rw [shownNumber, spelled, decimals, mul_div_assoc, mul_div_assoc, ← scaled]
  by_cases zero : roundedCells neg num den width = 0
  · simp [zero]
  · simp only [sign, zero, ne_eq, not_false_iff, and_true]

/-- Settles O30: `Fits` is the condition of the statement, its numbers being the floors of the exact value. -/
theorem encodeShowsTheRoundedValue : Obligations.EncodeShowsTheRoundedValue := by
  intro width value finite
  simp only [floor_abs_realValue, decide_realValue_neg, floor_rounded_realValue]
  refine ⟨_, encodeDigits_of_finite finite width, ?_⟩
  by_cases fits : Fits (isNegative value) (magnitudeUnits value) unitsPerOne width
  · exact (iff_of_eq (if_pos fits)).2 (shownNumber_encodeMagnitude unitsPerOne_pos fits)
  · exact (iff_of_eq (if_neg fits)).2 (encodeMagnitude_of_not_fits unitsPerOne_pos fits)

/-- Settles O31: the first test of the encoder is on the digits of the integer part and the sign cell. -/
theorem encodeOverflowFillsWithSigns : Obligations.EncodeOverflowFillsWithSigns := by
  intro s width value finite wide
  have count : width < cellCount (isNegative value) (magnitudeUnits value) unitsPerOne := by
    rwa [floor_abs_realValue, if_congr (realValue_neg_iff value) rfl rfl] at wide
  have overflow := encodeMagnitude_of_not_fits unitsPerOne_pos fun fits => absurd fits.1 (not_le.2 count)
  exact exec_encode_of_some ((encodeDigits_of_finite finite width).trans (congrArg some overflow)) s

/-- Settles O32: where the digits fit the cells are a layout, elsewhere SIGN. -/
theorem encodeResultHasTheLayout : Obligations.EncodeResultHasTheLayout := by
  intro width value seq encoded
  obtain ⟨-, rfl⟩ := encodeDigits_eq_some_iff.1 encoded
  simp only [floor_abs_realValue, decide_realValue_neg, floor_rounded_realValue]
  by_cases fits : Fits (isNegative value) (magnitudeUnits value) unitsPerOne width
  · obtain ⟨pad, ints, last, fraction, cells, -, head, final, zero, -⟩ :=
      encodeMagnitude_eq_numberCells unitsPerOne_pos fits
    refine (iff_of_eq (if_pos fits)).2 ⟨pad, ints, last, fraction, cells.trans ?_, head, final, zero⟩
    simp only [numberCells, signCells, Bool.and_eq_true, bne_iff_ne]
    rfl
  · exact (iff_of_eq (if_neg fits)).2 (encodeMagnitude_of_not_fits unitsPerOne_pos fits)

theorem roundScaled_zero {den : Nat} (pos : 0 < den) (k : Nat) : roundScaled 0 den k = 0 := by
  rw [roundScaled, Nat.zero_mul, Nat.mul_zero, Nat.zero_add]
  exact Nat.div_eq_of_lt (by omega)

/-- R118: the magnitude 0 shows one 0 in the last of the cells. -/
theorem encodeMagnitude_zero {den : Nat} (pos : 0 < den) (width : Nat) :
    encodeMagnitude false 0 den (width + 1) = List.replicate width .blank ++ [.digit 0] := by
  have count : cellCount false 0 den = 1 := by rw [cellCount, Nat.zero_div]; rfl
  have rounded : roundedCells false 0 den (width + 1) = 0 := roundScaled_zero pos _
  have fits : Fits false 0 den (width + 1) := by
    rw [Fits, count, rounded, Nat.zero_div]
    exact ⟨Nat.le_add_left 1 width, Nat.le_add_left 1 width⟩
  rw [encodeMagnitude_of_fits pos fits, layout_eq_numberCells, rounded, Nat.zero_div, Nat.zero_mod]
  simp [numberCells, fractionField, decimalDigits, signCells, digitCount_of_lt]

theorem encodeDigits_of_zero {x : DWord} (finite : isNonfinite x = false) (zero : magnitudeUnits x = 0) (width : Nat) :
    encodeDigits x width = some (encodeMagnitude false 0 unitsPerOne width) := by
  have not_negative : isNegative x = false := by simp [isNegative, zero]
  rw [encodeDigits_of_finite finite, not_negative, zero]

/-- Settles O33: both zeros have magnitude 0 and are not negative, so the encoder gets the same arguments. -/
theorem bothZerosShowOneZero : Obligations.BothZerosShowOneZero := by
  have plus := encodeDigits_of_zero (x := 0x0000000000000000) (by decide) (by decide)
  have minus := encodeDigits_of_zero (x := 0x8000000000000000) (by decide) (by decide)
  refine ⟨fun width => ?_, ?_, fun width => by rw [plus, minus]⟩
  · rw [plus, encodeMagnitude_zero unitsPerOne_pos]
  · rw [plus, List.eq_nil_of_length_eq_zero (length_encodeMagnitude unitsPerOne_pos false 0 0)]

end Sys2Proof.Machine
end

section
/-! The segment mapper (41_segment_mapper.md) and what a command does to FAULT, the responses and the buffer: each
storing command is its fault or its segment writes, whose addresses are the command's own entries. -/

namespace Sys2Proof

/-! ## Well-formed configurations (00_scope.md R9) -/

theorem Config.wfBuf_iff (c : Config) : c.wfBuf = true ↔ 1 ≤ c.bufBytes ∧ c.bufBytes ≤ 256 := by
  simp [Config.wfBuf]

theorem Config.wfGroups_iff (c : Config) :
    c.wfGroups = true ↔ 1 ≤ c.groups.length ∧ c.groups.length ≤ 16 ∧ ∀ g ∈ c.groups, g.length ≤ 256 := by
  simp [Config.wfGroups, and_assoc]

theorem Config.wfBars_iff (c : Config) :
    c.wfBars = true ↔ c.bars.length ≤ 16 ∧ ∀ b ∈ c.bars, b.length ≤ 255 := by
  simp [Config.wfBars]

theorem SegmentTable.mem_toList_iff {a : SegmentAddress} {t : SegmentTable} : a ∈ t.toList ↔ ∃ j : Fin 8, t[j] = a := by
  rw [Vector.mem_toList_iff, Vector.mem_iff_getElem]
  exact ⟨fun ⟨i, h, eq⟩ => ⟨⟨i, h⟩, eq⟩, fun ⟨j, eq⟩ => ⟨j, j.isLt, eq⟩⟩

theorem Config.wfOffsets_iff (c : Config) :
    c.wfOffsets = true ↔ (∀ g ∈ c.groups, ∀ t ∈ g, ∀ j : Fin 8, t[j].offset.toNat < c.bufBytes) ∧
      ∀ b ∈ c.bars, ∀ a ∈ b, a.offset.toNat < c.bufBytes := by
  simp only [Config.wfOffsets, Bool.and_eq_true, List.all_eq_true, decide_eq_true_eq, SegmentTable.mem_toList_iff,
    forall_exists_index, forall_apply_eq_imp_iff]

theorem Config.wfGlyph_iff (c : Config) : c.wfGlyph = true ↔ ∀ s : Fin 11, c.glyph[s].toNat < 128 := by
  simp only [Config.wfGlyph, List.all_eq_true, decide_eq_true_eq, Vector.mem_toList_iff, Vector.mem_iff_getElem]
  exact ⟨fun h s => h _ ⟨s, s.isLt, rfl⟩, fun h p ⟨i, lt, eq⟩ => eq ▸ h ⟨i, lt⟩⟩

theorem Config.wf_iff (c : Config) :
    c.wf = true ↔
      (1 ≤ c.bufBytes ∧ c.bufBytes ≤ 256) ∧
      (1 ≤ c.groups.length ∧ c.groups.length ≤ 16 ∧ ∀ g ∈ c.groups, g.length ≤ 256) ∧
      (c.bars.length ≤ 16 ∧ ∀ b ∈ c.bars, b.length ≤ 255) ∧
      ((∀ g ∈ c.groups, ∀ t ∈ g, ∀ j : Fin 8, t[j].offset.toNat < c.bufBytes) ∧
        ∀ b ∈ c.bars, ∀ a ∈ b, a.offset.toNat < c.bufBytes) ∧
      ∀ s : Fin 11, c.glyph[s].toNat < 128 := by
  simp only [Config.wf, Bool.and_eq_true, Config.wfBuf_iff, Config.wfGroups_iff, Config.wfBars_iff,
    Config.wfOffsets_iff, Config.wfGlyph_iff, and_assoc]

/-- An entry of a position lies in the buffer. -/
theorem Config.position_offset_lt {c : Config} (wf : c.wf = true) {g : Nat} {tables : List SegmentTable}
    (group : c.groups[g]? = some tables) {t : SegmentTable} (mem : t ∈ tables) (j : Fin 8) :
    t[j].offset.toNat < c.bufBytes := by
  obtain ⟨-, -, -, ⟨positions, -⟩, -⟩ := c.wf_iff.1 wf
  exact positions tables (List.mem_of_getElem? group) t mem j

/-- A threshold of a bar lies in the buffer. -/
theorem Config.threshold_offset_lt {c : Config} (wf : c.wf = true) {b : Nat} {thresholds : List SegmentAddress}
    (bar : c.bars[b]? = some thresholds) {a : SegmentAddress} (mem : a ∈ thresholds) : a.offset.toNat < c.bufBytes := by
  obtain ⟨-, -, -, ⟨-, bars⟩, -⟩ := c.wf_iff.1 wf
  exact bars thresholds (List.mem_of_getElem? bar) a mem

namespace Machine

/-- In a whole buffer, the byte of a named bit exists when the entry's offset is in the buffer. -/
theorem Memory.exists_read_of_names {m : Memory} {n o k : Nat} {a : SegmentAddress} (wf : m.wf n = true)
    (offset : a.offset.toNat < n) (names : a.names o k = true) : ∃ b, m.read o = some b := by
  simp only [SegmentAddress.names, Bool.and_eq_true, decide_eq_true_eq] at names
  exact (Memory.read_isSome_iff wf o).2 (names.1 ▸ offset)

/-! ## The writes of a list -/

/-- A write that names a bit, with no later one that does, decides it. -/
theorem bit_segWrites_of_last {ws : List SegmentWrite} {m : Memory} {o k j : Nat} {b : Byte} {w : SegmentWrite}
    (byte : m.read o = some b) (at_j : ws[j]? = some w) (names : w.address.names o k = true)
    (later : ∀ j' w', j < j' → ws[j']? = some w' → w'.address.names o k = false) :
    (segWrites ws m).bit o k = w.on := by
  obtain ⟨bound, rfl⟩ := List.getElem?_eq_some_iff.1 at_j
  have parts : ws = ws.take j ++ ws[j] :: ws.drop (j + 1) := by
    rw [← List.drop_eq_getElem_cons bound, List.take_append_drop]
  rw [bit_segWrites byte, congrArg (byteAfter · o b) parts]
  refine bit_byteAfter_of_last names (fun v mem => ?_) b
  obtain ⟨i, at_i⟩ := List.mem_iff_getElem?.1 mem
  exact later (j + 1 + i) v (by omega) (by rw [← at_i, List.getElem?_drop])

/-- Settles O37: its mask is 0. -/
theorem absentEntryChangesNothing : Obligations.AbsentEntryChangesNothing :=
  fun _ _ m => segWrite_of_mask_eq_zero rfl m

/-- Settles O38: the bit law of a list of writes, at a byte that exists. -/
theorem lastWriteDecidesTheBit : Obligations.LastWriteDecidesTheBit := by
  intro ws m o k old byte
  rw [bit_segWrites byte, bit_byteAfter, Memory.bit, byte]
  cases ws.reverse.find? (fun w => w.address.names o k) <;> rfl

/-- Settles O8: each constructor against its number. -/
theorem glyphAndPointAreReadOffTheNumber : Obligations.GlyphAndPointAreReadOffTheNumber := by
  refine ⟨fun c small => ?_, fun c least most => ?_, fun c thirty => ?_⟩
  · cases c with
    | digit d => exact ⟨rfl, rfl⟩
    | sign => exact ⟨rfl, rfl⟩
    | digitPoint d => simp only [codeNumber] at small; omega
    | blank => simp only [codeNumber] at small; omega
  · obtain ⟨d, rfl⟩ := (hasPoint_eq_true_iff c).1 ((hasPoint_iff_codeNumber c).2 ⟨least, most⟩)
    exact ⟨rfl, rfl⟩
  · cases c with
    | digit d => simp only [codeNumber] at thirty; omega
    | sign => simp only [codeNumber] at thirty; omega
    | digitPoint d => simp only [codeNumber] at thirty; omega
    | blank => exact ⟨rfl, rfl⟩

/-! ## The writes of each storing command -/

theorem exec_of_storedWrites_inl {i : Instr} {s : State} {c : FaultCode} (storing : i.storing = true)
    (fault : storedWrites s.config i = .inl c) : exec i s = .next (s.enterFault c) := by
  rw [exec_storing storing, fault]
  rfl

theorem exec_of_storedWrites_inr {i : Instr} {s : State} {ws : List SegmentWrite} (storing : i.storing = true)
    (writes : storedWrites s.config i = .inr ws) :
    exec i s = .next { s with mem := segWrites ws s.mem, responses := s.responses ++ [⟨statusOk, []⟩] } := by
  rw [exec_storing storing, writes]
  rfl

/-- The checks of SETDIG in order, and its writes where all hold (R141). -/
theorem storedWrites_setdig_cases (c : Config) (g pos code : Nat) :
    (c.groups[g]? = none ∧ storedWrites c (.setdig g pos code) = .inl .badSelect) ∨
    ∃ tables, c.groups[g]? = some tables ∧
      ((tables[pos]? = none ∧ storedWrites c (.setdig g pos code) = .inl .badPosition) ∨
      ∃ table, tables[pos]? = some table ∧
        ((codeOfNumber code = none ∧ storedWrites c (.setdig g pos code) = .inl .badCode) ∨
        ∃ d, codeOfNumber code = some d ∧
          storedWrites c (.setdig g pos code) = .inr (applyWrites c.glyph table d))) := by
  cases group : c.groups[g]? with
  | none => exact .inl ⟨rfl, by simp [storedWrites, group]⟩
  | some tables =>
    refine .inr ⟨tables, rfl, ?_⟩
    cases position : tables[pos]? with
    | none => exact .inl ⟨rfl, by simp [storedWrites, group, position]⟩
    | some table =>
      refine .inr ⟨table, rfl, ?_⟩
      cases number : codeOfNumber code with
      | none => exact .inl ⟨rfl, by simp [storedWrites, group, position, number]⟩
      | some d => exact .inr ⟨d, rfl, by simp [storedWrites, group, position, number]⟩

/-- The checks of RENDER in order, and its writes where all hold (42_consumer_api.md R160, R163). -/
theorem storedWrites_render_cases (c : Config) (g width : Nat) (value : DWord) :
    (c.groups[g]? = none ∧ storedWrites c (.render g width value) = .inl .badSelect) ∨
    ∃ tables, c.groups[g]? = some tables ∧
      ((tables.length < width ∧ storedWrites c (.render g width value) = .inl .badPosition) ∨
      width ≤ tables.length ∧
        ((encodeDigits value width = none ∧ storedWrites c (.render g width value) = .inl .nonfinite) ∨
        ∃ seq, encodeDigits value width = some seq ∧
          storedWrites c (.render g width value) = .inr (sequenceWrites c.glyph tables seq))) := by
  cases group : c.groups[g]? with
  | none => exact .inl ⟨rfl, by simp [storedWrites, group]⟩
  | some tables =>
    refine .inr ⟨tables, rfl, ?_⟩
    by_cases short : tables.length < width
    · exact .inl ⟨short, by simp [storedWrites, group, short]⟩
    · refine .inr ⟨not_lt.1 short, ?_⟩
      cases encoded : encodeDigits value width with
      | none => exact .inl ⟨rfl, by simp [storedWrites, group, short, encoded]⟩
      | some seq => exact .inr ⟨seq, rfl, by simp [storedWrites, group, short, encoded]⟩

/-- The checks of BAR in order, and its writes where all hold (42_consumer_api.md R165). -/
theorem storedWrites_bar_cases (c : Config) (b level : Nat) :
    (c.bars[b]? = none ∧ storedWrites c (.bar b level) = .inl .badSelect) ∨
    ∃ thresholds, c.bars[b]? = some thresholds ∧
      ((thresholds.length < level ∧ storedWrites c (.bar b level) = .inl .badLevel) ∨
      level ≤ thresholds.length ∧ storedWrites c (.bar b level) = .inr (barWrites thresholds level)) := by
  cases bar : c.bars[b]? with
  | none => exact .inl ⟨rfl, by simp [storedWrites, bar]⟩
  | some thresholds =>
    refine .inr ⟨thresholds, rfl, ?_⟩
    by_cases high : thresholds.length < level
    · exact .inl ⟨high, by simp [storedWrites, bar, high]⟩
    · exact .inr ⟨not_lt.1 high, by simp [storedWrites, bar, high]⟩

theorem storedWrites_setdig {c : Config} {g pos code : Nat} {tables : List SegmentTable} {table : SegmentTable}
    {d : SymbolicDigit} (group : c.groups[g]? = some tables) (position : tables[pos]? = some table)
    (number : codeNumber d = code) :
    storedWrites c (.setdig g pos code) = .inr (applyWrites c.glyph table d) := by
  simp [storedWrites, group, position, ← number]

theorem storedWrites_render {c : Config} {g width : Nat} {value : DWord} {tables : List SegmentTable}
    {seq : List SymbolicDigit} (group : c.groups[g]? = some tables) (fits : width ≤ tables.length)
    (encoded : encodeDigits value width = some seq) :
    storedWrites c (.render g width value) = .inr (sequenceWrites c.glyph tables seq) := by
  simp [storedWrites, group, not_lt.2 fits, encoded]

theorem storedWrites_bar {c : Config} {b level : Nat} {thresholds : List SegmentAddress}
    (bar : c.bars[b]? = some thresholds) (fits : level ≤ thresholds.length) :
    storedWrites c (.bar b level) = .inr (barWrites thresholds level) := by
  simp [storedWrites, bar, not_lt.2 fits]

/-! ## SETSEG and CLRSEG (R139, R140) -/

/-- The write of SETSEG and CLRSEG changes the byte at its offset alone. -/
theorem read_byteWrite {off : Nat} (field : off < 256) (mask : Byte) (on : Bool) (m : Memory) (o : Nat) :
    (segWrites [byteWrite off mask on] m).read o =
      if o = off then (m.read o).map (segByte mask on) else m.read o := by
  have offset : (BitVec.ofNat 8 off).toNat = off := by simpa using field
  have write := read_segWrite (byteWrite off mask on) m o
  rwa [byteWrite, offset] at write

theorem read_byteWrite_same {off : Nat} (field : off < 256) (mask : Byte) (on : Bool) {m : Memory} {old : Byte}
    (byte : m.read off = some old) :
    (segWrites [byteWrite off mask on] m).read off = some (segByte mask on old) := by
  rw [read_byteWrite field, if_pos rfl, byte, Option.map_some]

theorem read_byteWrite_ne {off o : Nat} (field : off < 256) (ne : o ≠ off) (mask : Byte) (on : Bool) (m : Memory) :
    (segWrites [byteWrite off mask on] m).read o = m.read o := by
  rw [read_byteWrite field, if_neg ne]

theorem exec_setseg {s : State} {off : Nat} (inside : off < s.config.bufBytes) (mask : Byte) :
    exec (.setseg off mask) s = .next { s with
      mem := segWrites [byteWrite off mask true] s.mem, responses := s.responses ++ [⟨statusOk, []⟩] } :=
  exec_of_storedWrites_inr rfl (if_neg (not_le.2 inside))

theorem exec_clrseg {s : State} {off : Nat} (inside : off < s.config.bufBytes) (mask : Byte) :
    exec (.clrseg off mask) s = .next { s with
      mem := segWrites [byteWrite off mask false] s.mem, responses := s.responses ++ [⟨statusOk, []⟩] } :=
  exec_of_storedWrites_inr rfl (if_neg (not_le.2 inside))

/-- Settles O34: one segment write that sets. -/
theorem setsegSetsTheMaskBits : Obligations.SetsegSetsTheMaskBits :=
  fun s _ mask _ field inside byte =>
    ⟨_, exec_setseg inside mask, read_byteWrite_same field mask true byte,
      fun _ ne => read_byteWrite_ne field ne mask true s.mem⟩

/-- Settles O35: one segment write that clears. -/
theorem clrsegClearsTheMaskBits : Obligations.ClrsegClearsTheMaskBits :=
  fun s _ mask _ field inside byte =>
    ⟨_, exec_clrseg inside mask, read_byteWrite_same field mask false byte,
      fun _ ne => read_byteWrite_ne field ne mask false s.mem⟩

/-- Settles O36: the offset check of both commands, before the mask is looked at. -/
theorem offsetOutsideTheBufferFaults : Obligations.OffsetOutsideTheBufferFaults := by
  rintro s off mask i outside (rfl | rfl)
  · exact exec_of_storedWrites_inl (c := .badOffset) rfl (if_pos outside)
  · exact exec_of_storedWrites_inl (c := .badOffset) rfl (if_pos outside)

/-! ## SETDIG (R141) -/

theorem getElem?_applyWrites (glyph : Vector Byte 11) (table : SegmentTable) (c : SymbolicDigit) (j : Fin 8) :
    (applyWrites glyph table c)[j.val]? = some ⟨table[j], segmentLit glyph c j⟩ := by
  rw [applyWrites_eq_ofFn, List.getElem?_ofFn, dif_pos j.isLt]

theorem length_applyWrites (glyph : Vector Byte 11) (table : SegmentTable) (c : SymbolicDigit) :
    (applyWrites glyph table c).length = 8 := by
  rw [applyWrites_eq_ofFn, List.length_ofFn]

theorem exists_of_getElem?_applyWrites {glyph : Vector Byte 11} {table : SegmentTable} {c : SymbolicDigit} {j : Nat}
    {w : SegmentWrite} (h : (applyWrites glyph table c)[j]? = some w) :
    ∃ i : Fin 8, i.val = j ∧ w.address = table[i] := by
  have bound : j < 8 := by simpa [length_applyWrites] using (List.getElem?_eq_some_iff.1 h).1
  have entry := getElem?_applyWrites glyph table c ⟨j, bound⟩
  exact ⟨⟨j, bound⟩, rfl, by rw [← Option.some.inj (entry.symm.trans h)]⟩

/-- R135: the last segment of a position that names a bit draws it. -/
theorem bit_applyWrites_of_last {table : SegmentTable} {m : Memory} {o k : Nat} {b : Byte} {j : Fin 8}
    (byte : m.read o = some b) (names : table[j].names o k = true)
    (later : ∀ j' : Fin 8, j < j' → table[j'].names o k = false) (glyph : Vector Byte 11) (c : SymbolicDigit) :
    (segWrites (applyWrites glyph table c) m).bit o k = segmentLit glyph c j := by
  refine bit_segWrites_of_last byte (getElem?_applyWrites glyph table c j) names fun j' w lt at_j' => ?_
  obtain ⟨i, rfl, address⟩ := exists_of_getElem?_applyWrites at_j'
  rw [address]
  exact later i lt

/-- Every address of `applyWrites` is an entry of the table, and so what no entry has, no write has. -/
theorem forall_mem_applyWrites {P : SegmentAddress → Prop} {table : SegmentTable} (h : ∀ j : Fin 8, P table[j])
    (glyph : Vector Byte 11) (c : SymbolicDigit) : ∀ w ∈ applyWrites glyph table c, P w.address := by
  intro w mem
  obtain ⟨j, rfl⟩ := mem_applyWrites.1 mem
  exact h j

/-- Settles O41: the last write of the position that names a bit is the segment's own. -/
theorem setdigDrawsTheCode : Obligations.SetdigDrawsTheCode := by
  intro s g pos code tables table c wf buffer group position number
  refine ⟨_, exec_of_storedWrites_inr rfl (storedWrites_setdig group position number), fun o k j names later => ?_,
    fun o k unnamed => ?_, fun o unaddressed => ?_⟩
  · obtain ⟨b, byte⟩ := Memory.exists_read_of_names buffer
      (Config.position_offset_lt wf group (List.mem_of_getElem? position) j) names
    exact bit_applyWrites_of_last byte names later _ c
  · exact bit_segWrites_of_not_named
      (forall_mem_applyWrites (P := fun a => a.names o k = false) unnamed _ c) s.mem
  · exact read_segWrites_of_not_addressed
      (forall_mem_applyWrites (P := fun a => a.offset.toNat ≠ o) unaddressed _ c) s.mem

/-- Settles O42: BAD_CODE is the last check of SETDIG, and the encoder's cells are codes by their type. -/
theorem numbersThatAreNoCodesFault : Obligations.NumbersThatAreNoCodesFault := by
  refine ⟨fun s g pos code tables group position number => ?_, fun _ _ _ _ c _ => ?_⟩
  · have no_code : codeOfNumber code = none := (codeOfNumber_eq_none_iff code).2 (by omega)
    refine exec_of_storedWrites_inl (c := .badCode) rfl ?_
    simp [storedWrites, group, List.getElem?_eq_getElem position, no_code]
  · have code := (exists_codeNumber_eq_iff (codeNumber c)).1 ⟨c, rfl⟩
    omega

/-! ## The entries of a command (20_memory.md R41, 42_consumer_api.md R169) -/

theorem mem_sequenceWrites {glyph : Vector Byte 11} {tables : List SegmentTable} {seq : List SymbolicDigit}
    {w : SegmentWrite} (mem : w ∈ sequenceWrites glyph tables seq) :
    ∃ t ∈ tables.take seq.length, ∃ j : Fin 8, w.address = t[j] := by
  obtain ⟨ws, mem_ws, mem⟩ := List.mem_flatten.1 mem
  obtain ⟨p, bound, rfl⟩ := List.mem_iff_getElem.1 mem_ws
  rw [List.getElem_zipWith] at mem
  obtain ⟨j, rfl⟩ := mem_applyWrites.1 mem
  rw [List.length_zipWith, lt_inf_iff] at bound
  exact ⟨tables[p], List.mem_take_iff_getElem.2 ⟨p, by simpa using bound.symm, rfl⟩, j, rfl⟩

theorem getElem?_barWrites (thresholds : List SegmentAddress) (level j : Nat) :
    (barWrites thresholds level)[j]? = thresholds[j]?.map fun a => ⟨a, decide (j < level)⟩ := by
  rw [barWrites, List.getElem?_mapIdx]

theorem address_mem_of_mem_barWrites {thresholds : List SegmentAddress} {level : Nat} {w : SegmentWrite}
    (mem : w ∈ barWrites thresholds level) : w.address ∈ thresholds := by
  obtain ⟨j, bound, rfl⟩ := List.mem_mapIdx.1 mem
  exact List.getElem_mem bound

/-- The segment writes of a storing command go to its own entries. -/
theorem address_mem_entries {i : Instr} {s : State} {ws : List SegmentWrite}
    (writes : storedWrites s.config i = .inr ws) : ∀ w ∈ ws, w.address ∈ s.entries i := by
  intro w mem
  cases i with
  | encode width value =>
    cases writes
    cases mem
  | flush =>
    cases writes
    cases mem
  | setseg off mask =>
    simp only [storedWrites] at writes
    split_ifs at writes
    cases writes
    simpa [State.entries, byteWrite] using congrArg SegmentWrite.address (List.mem_singleton.1 mem)
  | clrseg off mask =>
    simp only [storedWrites] at writes
    split_ifs at writes
    cases writes
    simpa [State.entries, byteWrite] using congrArg SegmentWrite.address (List.mem_singleton.1 mem)
  | setdig g pos code =>
    obtain ⟨-, fault⟩ | ⟨tables, group, ⟨-, fault⟩ | ⟨table, position, ⟨-, fault⟩ | ⟨d, -, drawn⟩⟩⟩ :=
      storedWrites_setdig_cases s.config g pos code
    · cases fault.symm.trans writes
    · cases fault.symm.trans writes
    · cases fault.symm.trans writes
    · cases drawn.symm.trans writes
      obtain ⟨j, rfl⟩ := mem_applyWrites.1 mem
      simp only [State.entries, State.group, group, position, Option.getD_some, Option.map_some]
      exact SegmentTable.mem_toList_iff.2 ⟨j, rfl⟩
  | render g width value =>
    obtain ⟨-, fault⟩ | ⟨tables, group, ⟨-, fault⟩ | ⟨-, ⟨-, fault⟩ | ⟨seq, encoded, drawn⟩⟩⟩ :=
      storedWrites_render_cases s.config g width value
    · cases fault.symm.trans writes
    · cases fault.symm.trans writes
    · cases fault.symm.trans writes
    · cases drawn.symm.trans writes
      obtain ⟨t, taken, j, address⟩ := mem_sequenceWrites mem
      rw [length_of_encodeDigits encoded] at taken
      simp only [State.entries, State.group, group, Option.getD_some, List.mem_flatMap]
      exact ⟨t, taken, SegmentTable.mem_toList_iff.2 ⟨j, address.symm⟩⟩
  | bar b level =>
    obtain ⟨-, fault⟩ | ⟨thresholds, bar, ⟨-, fault⟩ | ⟨-, filled⟩⟩ := storedWrites_bar_cases s.config b level
    · cases fault.symm.trans writes
    · cases fault.symm.trans writes
    · cases filled.symm.trans writes
      simpa only [State.entries, State.barTable, bar, Option.getD_some] using address_mem_of_mem_barWrites mem

/-- Settles O23: only a storing command that takes no fault writes the buffer, and only at its own entries. -/
theorem commandChangesOnlyTheBitsItNames : Obligations.CommandChangesOnlyTheBitsItNames := by
  intro i s t executed
  obtain ⟨c, outcome⟩ | ⟨ws, -, writes, outcome⟩ | ⟨_, _, seq, -, -, outcome⟩ | ⟨-, outcome⟩ := exec_cases i s
  · cases outcome.symm.trans executed
    exact ⟨fun _ _ => rfl, fun _ _ _ => rfl⟩
  · cases outcome.symm.trans executed
    have own := address_mem_entries writes
    exact ⟨fun o unaddressed => read_segWrites_of_not_addressed (fun w mem => unaddressed _ (own w mem)) s.mem,
      fun o k unnamed => bit_segWrites_of_not_named (fun w mem => unnamed _ (own w mem)) s.mem⟩
  · cases outcome.symm.trans executed
    exact ⟨fun _ _ => rfl, fun _ _ _ => rfl⟩
  · cases outcome.symm.trans executed
    simp

/-! ## Storing commands in sequence (R138, R169) -/

/-- The writes a storing command performs: none where it takes a fault. -/
def performedWrites (c : Config) (i : Instr) : List SegmentWrite := (storedWrites c i).elim (fun _ => []) id

theorem mem_of_exec_storing {i : Instr} {s t : State} (storing : i.storing = true) (executed : exec i s = .next t) :
    t.config = s.config ∧ t.mem = segWrites (performedWrites s.config i) s.mem := by
  unfold performedWrites
  cases writes : storedWrites s.config i with
  | inl c =>
    cases (exec_of_storedWrites_inl storing writes).symm.trans executed
    exact ⟨rfl, rfl⟩
  | inr ws =>
    cases (exec_of_storedWrites_inr storing writes).symm.trans executed
    exact ⟨rfl, rfl⟩

theorem address_mem_entries_of_performed {i : Instr} {s : State} {w : SegmentWrite}
    (mem : w ∈ performedWrites s.config i) : w.address ∈ s.entries i := by
  unfold performedWrites at mem
  cases writes : storedWrites s.config i with
  | inl c => rw [writes] at mem; cases mem
  | inr ws => rw [writes] at mem; exact address_mem_entries writes w mem

/-- Settles O43: the second execution performs the same list of writes again. -/
theorem storingTwiceIsStoringOnce : Obligations.StoringTwiceIsStoringOnce := by
  intro i s t u storing first second
  obtain ⟨config, mem⟩ := mem_of_exec_storing storing first
  obtain ⟨-, mem'⟩ := mem_of_exec_storing storing second
  rw [mem', config, mem, segWrites_idem]

/-- Settles O44: the two lists of writes name no bit in common. -/
theorem disjointUpdatesCommute : Obligations.DisjointUpdatesCommute := by
  intro i j s t u t' u' storing storing' disjoint first second first' second'
  obtain ⟨config, mem⟩ := mem_of_exec_storing storing first
  obtain ⟨config', mem'⟩ := mem_of_exec_storing storing' first'
  rw [(mem_of_exec_storing storing' second).2, (mem_of_exec_storing storing second').2, config, config', mem, mem']
  exact segWrites_comm s.mem fun w hw w' hw' o k ⟨names, names'⟩ =>
    disjoint _ (address_mem_entries_of_performed hw') _ (address_mem_entries_of_performed hw) o k ⟨names', names⟩

end Machine

end Sys2Proof
end

section
/-! The faults of a command (60_exceptions.md R201, R203, R205): which fault a command takes, as a function of the
configuration, is the least of the causes that apply to it. -/

namespace Sys2Proof.Machine

/-- The fault a command takes in a configuration, if it takes one. -/
def commandFault (c : Config) : Instr → Option FaultCode
  | .encode _ value => if isNonfinite value then some .nonfinite else none
  | i => (storedWrites c i).getLeft?

/-- A cause that applies to a command, none with a lower code applying (R205). -/
def State.LeastCause (s : State) (i : Instr) (c : FaultCode) : Prop :=
  s.faultCause i c ∧ ∀ d, s.faultCause i d → c.value ≤ d.value

theorem FaultCode.value_injective : Function.Injective FaultCode.value := by
  intro c d same
  cases c <;> cases d <;> simp [FaultCode.value] at same ⊢

theorem FaultCode.value_ne_zero (c : FaultCode) : c.value ≠ 0 := by cases c <;> decide

theorem FaultCode.value_le_seven (c : FaultCode) : c.value.toNat ≤ 7 := by cases c <;> decide

theorem State.LeastCause.unique {s : State} {i : Instr} {c d : FaultCode} (hc : s.LeastCause i c)
    (hd : s.LeastCause i d) : c = d :=
  FaultCode.value_injective (BitVec.le_antisymm (hc.2 d hd.1) (hd.2 c hc.1))

/-! ### The causes of each command, in the order of their codes (R201) -/

section Causes

variable {s : State} {d : FaultCode}

theorem faultCause_encode_iff {width : Nat} {value : DWord} :
    s.faultCause (.encode width value) d ↔ d = .nonfinite ∧ isNonfinite value = true := by
  cases d <;> simp [State.faultCause]

theorem faultCause_setseg_iff {off : Nat} {mask : Byte} :
    s.faultCause (.setseg off mask) d ↔ d = .badOffset ∧ s.config.bufBytes ≤ off := by
  cases d <;> simp [State.faultCause]

theorem faultCause_clrseg_iff {off : Nat} {mask : Byte} :
    s.faultCause (.clrseg off mask) d ↔ d = .badOffset ∧ s.config.bufBytes ≤ off := by
  cases d <;> simp [State.faultCause]

theorem faultCause_setdig_iff {g pos code : Nat} :
    s.faultCause (.setdig g pos code) d ↔
      (d = .badSelect ∧ s.config.groups[g]? = none) ∨
      (d = .badPosition ∧ ∃ tables, s.config.groups[g]? = some tables ∧ tables[pos]? = none) ∨
      (d = .badCode ∧ codeOfNumber code = none) := by
  cases d <;> simp [State.faultCause, codeOfNumber_eq_none_iff]

theorem faultCause_render_iff {g width : Nat} {value : DWord} :
    s.faultCause (.render g width value) d ↔
      (d = .badSelect ∧ s.config.groups[g]? = none) ∨
      (d = .badPosition ∧ ∃ tables, s.config.groups[g]? = some tables ∧ tables.length < width) ∨
      (d = .nonfinite ∧ encodeDigits value width = none) := by
  cases d <;> simp [State.faultCause, encodeDigits_eq_none_iff]

theorem faultCause_bar_iff {b level : Nat} :
    s.faultCause (.bar b level) d ↔
      (d = .badSelect ∧ s.config.bars[b]? = none) ∨
      (d = .badLevel ∧ ∃ thresholds, s.config.bars[b]? = some thresholds ∧ thresholds.length < level) := by
  cases d <;> simp [State.faultCause]

theorem not_faultCause_flush : ¬ s.faultCause .flush d := by cases d <;> exact id

end Causes

/-- The one check of SETSEG and CLRSEG (R139, R140). -/
theorem commandFault_spec_of_offset {s : State} {i : Instr} {off : Nat}
    (fault : commandFault s.config i = if s.config.bufBytes ≤ off then some .badOffset else none)
    (cause : ∀ d, s.faultCause i d ↔ d = .badOffset ∧ s.config.bufBytes ≤ off) :
    (∃ c, commandFault s.config i = some c ∧ s.LeastCause i c) ∨
      (commandFault s.config i = none ∧ ∀ c, ¬ s.faultCause i c) := by
  by_cases outside : s.config.bufBytes ≤ off
  · exact .inl ⟨.badOffset, fault.trans (if_pos outside), (cause _).2 ⟨rfl, outside⟩,
      fun d h => by rw [((cause d).1 h).1]; exact BitVec.le_refl _⟩
  · exact .inr ⟨fault.trans (if_neg outside), fun d h => outside ((cause d).1 h).2⟩

/-- The checks of a command find the cause with the least code, or none where none applies (R201, R205). -/
theorem commandFault_spec (s : State) (i : Instr) :
    (∃ c, commandFault s.config i = some c ∧ s.LeastCause i c) ∨
      (commandFault s.config i = none ∧ ∀ c, ¬ s.faultCause i c) := by
  cases i with
  | encode width value =>
    by_cases nonfinite : isNonfinite value = true
    · refine .inl ⟨.nonfinite, if_pos nonfinite, faultCause_encode_iff.2 ⟨rfl, nonfinite⟩, fun d cause => ?_⟩
      obtain ⟨rfl, -⟩ := faultCause_encode_iff.1 cause
      exact BitVec.le_refl _
    · exact .inr ⟨if_neg nonfinite, fun d cause => nonfinite (faultCause_encode_iff.1 cause).2⟩
  | flush => exact .inr ⟨rfl, fun d => not_faultCause_flush⟩
  | setseg off mask =>
    refine commandFault_spec_of_offset (off := off) ?_ fun d => faultCause_setseg_iff
    simp only [commandFault, storedWrites]
    split <;> rfl
  | clrseg off mask =>
    refine commandFault_spec_of_offset (off := off) ?_ fun d => faultCause_clrseg_iff
    simp only [commandFault, storedWrites]
    split <;> rfl
  | setdig g pos code =>
    simp only [State.LeastCause, faultCause_setdig_iff, commandFault]
    obtain ⟨none, fault⟩ | ⟨tables, group, ⟨none, fault⟩ | ⟨table, position, ⟨none, fault⟩ | ⟨c, number, drawn⟩⟩⟩ :=
      storedWrites_setdig_cases s.config g pos code
    · refine .inl ⟨.badSelect, by rw [fault]; rfl, .inl ⟨rfl, none⟩, fun d cause => ?_⟩
      obtain ⟨rfl, -⟩ | ⟨rfl, -⟩ | ⟨rfl, -⟩ := cause <;> decide
    · refine .inl ⟨.badPosition, by rw [fault]; rfl, .inr (.inl ⟨rfl, tables, group, none⟩), fun d cause => ?_⟩
      obtain ⟨-, absent⟩ | ⟨rfl, -⟩ | ⟨rfl, -⟩ := cause
      · cases group.symm.trans absent
      · decide
      · decide
    · refine .inl ⟨.badCode, by rw [fault]; rfl, .inr (.inr ⟨rfl, none⟩), fun d cause => ?_⟩
      obtain ⟨-, absent⟩ | ⟨-, tables', group', absent⟩ | ⟨rfl, -⟩ := cause
      · cases group.symm.trans absent
      · cases group.symm.trans group'
        cases position.symm.trans absent
      · decide
    · refine .inr ⟨by rw [drawn]; rfl, fun d cause => ?_⟩
      obtain ⟨-, absent⟩ | ⟨-, tables', group', absent⟩ | ⟨-, absent⟩ := cause
      · cases group.symm.trans absent
      · cases group.symm.trans group'
        cases position.symm.trans absent
      · cases number.symm.trans absent
  | render g width value =>
    simp only [State.LeastCause, faultCause_render_iff, commandFault]
    obtain ⟨none, fault⟩ | ⟨tables, group, ⟨short, fault⟩ | ⟨fits, ⟨none, fault⟩ | ⟨seq, encoded, drawn⟩⟩⟩ :=
      storedWrites_render_cases s.config g width value
    · refine .inl ⟨.badSelect, by rw [fault]; rfl, .inl ⟨rfl, none⟩, fun d cause => ?_⟩
      obtain ⟨rfl, -⟩ | ⟨rfl, -⟩ | ⟨rfl, -⟩ := cause <;> decide
    · refine .inl ⟨.badPosition, by rw [fault]; rfl, .inr (.inl ⟨rfl, tables, group, short⟩), fun d cause => ?_⟩
      obtain ⟨-, absent⟩ | ⟨rfl, -⟩ | ⟨rfl, -⟩ := cause
      · cases group.symm.trans absent
      · decide
      · decide
    · refine .inl ⟨.nonfinite, by rw [fault]; rfl, .inr (.inr ⟨rfl, none⟩), fun d cause => ?_⟩
      obtain ⟨-, absent⟩ | ⟨-, tables', group', short⟩ | ⟨rfl, -⟩ := cause
      · cases group.symm.trans absent
      · cases group.symm.trans group'
        exact absurd short (not_lt.2 fits)
      · decide
    · refine .inr ⟨by rw [drawn]; rfl, fun d cause => ?_⟩
      obtain ⟨-, absent⟩ | ⟨-, tables', group', short⟩ | ⟨-, absent⟩ := cause
      · cases group.symm.trans absent
      · cases group.symm.trans group'
        exact absurd short (not_lt.2 fits)
      · cases encoded.symm.trans absent
  | bar b level =>
    simp only [State.LeastCause, faultCause_bar_iff, commandFault]
    obtain ⟨none, fault⟩ | ⟨thresholds, bar, ⟨high, fault⟩ | ⟨fits, filled⟩⟩ := storedWrites_bar_cases s.config b level
    · refine .inl ⟨.badSelect, by rw [fault]; rfl, .inl ⟨rfl, none⟩, fun d cause => ?_⟩
      obtain ⟨rfl, -⟩ | ⟨rfl, -⟩ := cause <;> decide
    · refine .inl ⟨.badLevel, by rw [fault]; rfl, .inr ⟨rfl, thresholds, bar, high⟩, fun d cause => ?_⟩
      obtain ⟨-, absent⟩ | ⟨rfl, -⟩ := cause
      · cases bar.symm.trans absent
      · decide
    · refine .inr ⟨by rw [filled]; rfl, fun d cause => ?_⟩
      obtain ⟨-, absent⟩ | ⟨-, thresholds', bar', high⟩ := cause
      · cases bar.symm.trans absent
      · cases bar.symm.trans bar'
        exact absurd high (not_lt.2 fits)

/-! ### Executing by the fault -/

theorem commandFault_of_storing {i : Instr} (storing : i.storing = true) (c : Config) :
    commandFault c i = (storedWrites c i).getLeft? := by
  cases i with
  | encode => cases storing
  | _ => rfl

/-- A command takes its fault (R203), or performs its writes, or responds with its sequence, or is a FLUSH. -/
theorem exec_cases_commandFault (i : Instr) (s : State) :
    (∃ c, commandFault s.config i = some c ∧ exec i s = .next (s.enterFault c)) ∨
    commandFault s.config i = none ∧
      ((∃ ws, i.storing = true ∧ storedWrites s.config i = .inr ws ∧
        exec i s = .next ((s.write ws).respond statusOk [])) ∨
      (∃ width value seq, i = .encode width value ∧ encodeDigits value width = some seq ∧
        exec i s = .next (s.respond statusOk seq)) ∨
      (i = .flush ∧ exec i s = .next s.handOver.takeAnswer)) := by
  cases storing : i.storing with
  | true =>
    rw [commandFault_of_storing storing]
    cases writes : storedWrites s.config i with
    | inl c => exact .inl ⟨c, rfl, exec_of_storedWrites_inl storing writes⟩
    | inr ws => exact .inr ⟨rfl, .inl ⟨ws, rfl, rfl, exec_of_storedWrites_inr storing writes⟩⟩
  | false =>
    cases i with
    | encode width value =>
      cases encoded : encodeDigits value width with
      | none =>
        exact .inl ⟨.nonfinite, if_pos (encodeDigits_eq_none_iff.1 encoded), exec_encode_of_none encoded s⟩
      | some seq =>
        refine .inr ⟨if_neg ?_, .inr (.inl ⟨width, value, seq, rfl, encoded, exec_encode_of_some encoded s⟩)⟩
        simp [(encodeDigits_eq_some_iff.1 encoded).1]
    | flush => exact .inr ⟨rfl, .inr (.inr ⟨rfl, exec_flush s⟩)⟩
    | _ => cases storing

theorem exec_of_commandFault {i : Instr} {s : State} {c : FaultCode} (fault : commandFault s.config i = some c) :
    exec i s = .next (s.enterFault c) := by
  obtain ⟨d, fault', outcome⟩ | ⟨none, -⟩ := exec_cases_commandFault i s
  · cases fault.symm.trans fault'
    exact outcome
  · cases fault.symm.trans none

/-- A command that takes no fault leaves FAULT as it is. -/
theorem fault_of_commandFault_eq_none {i : Instr} {s : State} (none : commandFault s.config i = none) :
    ∃ t, exec i s = .next t ∧ t.fault = s.fault := by
  obtain ⟨c, fault, -⟩ | ⟨-, ⟨ws, -, -, outcome⟩ | ⟨_, _, seq, -, -, outcome⟩ | ⟨-, outcome⟩⟩ :=
    exec_cases_commandFault i s
  · cases none.symm.trans fault
  · exact ⟨_, outcome, rfl⟩
  · exact ⟨_, outcome, rfl⟩
  · exact ⟨_, outcome, by simp⟩

/-- Settles O22: the fault a command takes is its least cause, and least causes are unique. -/
theorem lowestApplicableFaultIsReported : Obligations.LowestApplicableFaultIsReported := by
  refine fun i s => ⟨fun c cause least => ?_, fun no_cause => ?_⟩
  · obtain ⟨d, fault, spec⟩ | ⟨-, no_cause⟩ := commandFault_spec s i
    · obtain rfl := spec.unique ⟨cause, least⟩
      exact exec_of_commandFault fault
    · exact absurd cause (no_cause c)
  · obtain ⟨d, -, cause, -⟩ | ⟨none, -⟩ := commandFault_spec s i
    · exact absurd cause (no_cause d)
    · exact fault_of_commandFault_eq_none none

/-! ### Responses (10_state.md R27) -/

theorem Response.legal_ok (digits : List SymbolicDigit) : (⟨statusOk, digits⟩ : Response).legal := .inl rfl

theorem Response.legal_transportFail : (⟨statusTransportFail, []⟩ : Response).legal := .inr ⟨rfl, .inl rfl⟩

theorem Response.legal_fault (c : FaultCode) : (⟨statusFault c.value, []⟩ : Response).legal :=
  .inr ⟨rfl, .inr ⟨c, rfl⟩⟩

/-- Taking an answer returns one legal response without digits, or holds the block without one. -/
theorem State.takeAnswer_responses (s : State) :
    (s.takeAnswer.held = false ∧
        ∃ r : Response, r.legal ∧ r.digits = [] ∧ s.takeAnswer.responses = s.responses ++ [r]) ∨
      (s.takeAnswer.held = true ∧ s.takeAnswer.responses = s.responses) := by
  obtain ⟨rest, status, rfl | rfl, answer⟩ | answer := s.takeAnswer_cases
  · rw [answer]
    exact .inl ⟨rfl, _, Response.legal_ok [], rfl, rfl⟩
  · rw [answer]
    exact .inl ⟨rfl, _, Response.legal_transportFail, rfl, rfl⟩
  · rw [answer]
    exact .inr ⟨rfl, rfl⟩

/-- Settles O21: the fault, the writes and the sequence respond once, and a FLUSH as its transport answers. -/
theorem executedCommandReturnsOneResponse : Obligations.ExecutedCommandReturnsOneResponse := by
  intro i s t executed
  obtain ⟨c, outcome⟩ | ⟨ws, -, -, outcome⟩ | ⟨width, value, seq, rfl, -, outcome⟩ | ⟨rfl, outcome⟩ := exec_cases i s
  · cases outcome.symm.trans executed
    exact .inl ⟨_, rfl, Response.legal_fault c, fun digits => absurd rfl digits⟩
  · cases outcome.symm.trans executed
    exact .inl ⟨_, rfl, Response.legal_ok [], fun digits => absurd rfl digits⟩
  · cases outcome.symm.trans executed
    exact .inl ⟨_, rfl, Response.legal_ok seq, fun _ => ⟨width, value, rfl⟩⟩
  · cases outcome.symm.trans executed
    obtain ⟨-, r, legal, none, responses⟩ | ⟨held, responses⟩ := s.handOver.takeAnswer_responses
    · exact .inl ⟨r, responses, legal, fun digits => absurd none digits⟩
    · exact .inr ⟨rfl, held, responses⟩

end Sys2Proof.Machine
end

section
/-! The step (00_scope.md R4, R9, 10_state.md, 60_exceptions.md R203 to R207, 70_reset_and_hazards.md): what each step
leaves unchanged, and the invariant of a run. -/

namespace Sys2Proof.Machine

/-! ### Single steps -/

/-- Settles O9: the ready branch of `step`. -/
theorem stepExecutesTheDecodedCommand : Obligations.StepExecutesTheDecodedCommand := by
  intro s i rest ready decoded
  rw [step_of_ready ready, decoded]
  rfl

/-- Settles O11: the ready branch of `step` with no whole command. -/
theorem blockWaitsForTheHost : Obligations.BlockWaitsForTheHost := by
  intro s ready decoded
  rw [step_of_ready ready, decoded]
  rfl

/-- Settles O10: a header that matches no row is no command, and is taken at its length. -/
theorem illegalHeaderRaisesIllegalCommand : Obligations.IllegalHeaderRaisesIllegalCommand := by
  intro s h ws ready commands whole unmatched
  obtain ⟨x, decoded⟩ := decode_of_le_length whole
  rw [step_of_ready ready, commands, decoded, decodeHeader_eq_none unmatched]
  rfl

/-- Settles O13: the five checks, and the refusal of the step. -/
theorem illFormedConfigurationIsRefused : Obligations.IllFormedConfigurationIsRefused :=
  ⟨Config.wf_iff, fun _ => step_of_ill_formed⟩

/-- Settles O12: a run from a faulted state can only be the empty one. -/
theorem faultedBlockTakesNoStep : Obligations.FaultedBlockTakesNoStep := by
  refine fun s wf faulted => ⟨step_of_faulted wf faulted, ?_⟩
  rintro t ⟨n, run⟩
  cases n with
  | zero => injection run with run; exact run.symm
  | succ n => rw [run_succ, step_of_faulted wf faulted] at run; cases run

/-! ### The configuration -/

theorem config_of_exec {i : Instr} {s t : State} (executed : exec i s = .next t) : t.config = s.config := by
  obtain ⟨c, outcome⟩ | ⟨ws, -, -, outcome⟩ | ⟨_, _, seq, -, -, outcome⟩ | ⟨-, outcome⟩ := exec_cases i s
  · cases outcome.symm.trans executed
    rfl
  · cases outcome.symm.trans executed
    rfl
  · cases outcome.symm.trans executed
    rfl
  · cases outcome.symm.trans executed
    exact s.handOver.takeAnswer_config

theorem config_of_step {s t : State} (stepped : step s = .next t) : t.config = s.config := by
  obtain ⟨-, -, ⟨-, rfl⟩ | ⟨-, ⟨i, rest, -, executed⟩ | ⟨rest, -, rfl⟩ | ⟨-, rfl⟩⟩⟩ := step_cases stepped
  · exact s.takeAnswer_config
  · exact config_of_exec (s := s.withCommands rest) executed
  · rfl
  · rfl

/-- Settles O14: no step writes the configuration, and so no run does. -/
theorem configurationNeverChanges : Obligations.ConfigurationNeverChanges := fun _ _ =>
  reaches_induction (P := fun s t => t.config = s.config) (fun _ => rfl)
    fun stepped rest => rest.trans (config_of_step stepped)

/-! ### FAULT and the buffer -/

/-- Settles O15: of the things a step can do, only a command's fault and ILLEGAL_COMMAND write FAULT. -/
theorem stepWritesFaultOnlyByAFaultingCommand : Obligations.StepWritesFaultOnlyByAFaultingCommand := by
  intro s t stepped
  obtain ⟨-, clear, ⟨-, rfl⟩ | ⟨free, ⟨i, rest, decoded, executed⟩ | ⟨rest, decoded, rfl⟩ | ⟨-, rfl⟩⟩⟩ :=
    step_cases stepped
  · exact ⟨clear, .inl (s.takeAnswer_fault.trans clear)⟩
  · refine ⟨clear, ?_⟩
    obtain ⟨c, fault, cause, -⟩ | ⟨none, -⟩ := commandFault_spec s i
    · cases (exec_of_commandFault (s := s.withCommands rest) fault).symm.trans executed
      exact .inr ⟨free, c, rest, .inr ⟨i, decoded, cause⟩, rfl⟩
    · obtain ⟨u, outcome, same⟩ := fault_of_commandFault_eq_none (s := s.withCommands rest) none
      cases outcome.symm.trans executed
      exact .inl (same.trans clear)
  · exact ⟨clear, .inr ⟨free, .illegalCommand, rest, .inl ⟨decoded, rfl⟩, rfl⟩⟩
  · exact ⟨clear, .inl clear⟩

/-- Settles O16: only a storing command's writes change the buffer. -/
theorem bufferChangesOnlyByStoringCommands : Obligations.BufferChangesOnlyByStoringCommands := by
  intro s t stepped changed
  obtain ⟨-, clear, ⟨-, rfl⟩ | ⟨free, ⟨i, rest, decoded, executed⟩ | ⟨rest, -, rfl⟩ | ⟨-, rfl⟩⟩⟩ := step_cases stepped
  · exact absurd s.takeAnswer_mem changed
  · obtain ⟨c, outcome⟩ | ⟨ws, storing, -, outcome⟩ | ⟨_, _, seq, -, -, outcome⟩ | ⟨-, outcome⟩ :=
      exec_cases i (s.withCommands rest)
    · cases outcome.symm.trans executed
      exact absurd rfl changed
    · cases outcome.symm.trans executed
      exact ⟨free, clear, i, rest, decoded, storing, executed⟩
    · cases outcome.symm.trans executed
      exact absurd rfl changed
    · cases outcome.symm.trans executed
      exact absurd (by simp) changed
  · exact absurd rfl changed
  · exact absurd rfl changed

/-! ### The buffer is seen only through FLUSH -/

theorem State.takeAnswer_with_mem (s : State) (m : Memory) (sent : List (List Byte)) :
    ({ s with mem := m, sent := sent } : State).takeAnswer = { s.takeAnswer with mem := m, sent := sent } := by
  unfold State.takeAnswer
  dsimp only
  split <;> rfl

/-- A command leads two states that differ in the buffer alone to such states again, but for what a FLUSH sends. -/
theorem exec_with_mem {i : Instr} {s t : State} (executed : exec i s = .next t) (m : Memory) :
    ∃ m' sent', exec i { s with mem := m } = .next { t with mem := m', sent := sent' } ∧
      (i ≠ .flush → sent' = t.sent) := by
  obtain ⟨c, fault, outcome⟩ |
      ⟨-, ⟨ws, storing, writes, outcome⟩ | ⟨width, value, seq, rfl, encoded, outcome⟩ | ⟨rfl, outcome⟩⟩ :=
    exec_cases_commandFault i s
  · cases outcome.symm.trans executed
    exact ⟨m, _, exec_of_commandFault (s := { s with mem := m }) fault, fun _ => rfl⟩
  · cases outcome.symm.trans executed
    exact ⟨segWrites ws m, _, exec_of_storedWrites_inr (s := { s with mem := m }) storing writes, fun _ => rfl⟩
  · cases outcome.symm.trans executed
    exact ⟨m, _, exec_encode_of_some encoded { s with mem := m }, fun _ => rfl⟩
  · cases outcome.symm.trans executed
    exact ⟨m, s.sent ++ [m.bytes], congrArg Host.Outcome.next (s.handOver.takeAnswer_with_mem m (s.sent ++ [m.bytes])),
      fun other => absurd rfl other⟩

/-- A step leads to a next state, is the fault halted, or is refused, by the configuration and FAULT alone. -/
theorem step_outcome (s : State) :
    (s.config.wf = true ∧ s.fault = 0 ∧ ∃ t, step s = .next t) ∨
    (s.config.wf = true ∧ s.fault ≠ 0 ∧ step s = .fault .halted) ∨
    (s.config.wf = false ∧ step s = .refused .illFormedConfig) := by
  cases wf : s.config.wf with
  | false => exact .inr (.inr ⟨rfl, step_of_ill_formed wf⟩)
  | true =>
    by_cases clear : s.fault = 0
    · refine .inl ⟨rfl, clear, ?_⟩
      cases held : s.held with
      | true => exact ⟨_, step_of_held wf clear held⟩
      | false =>
        rw [step_of_ready ⟨wf, clear, held⟩]
        cases decode s.commands with
        | command i rest =>
          obtain ⟨c, outcome⟩ | ⟨_, -, -, outcome⟩ | ⟨_, _, _, -, -, outcome⟩ | ⟨-, outcome⟩ :=
            exec_cases i (s.withCommands rest)
          · exact ⟨_, outcome⟩
          · exact ⟨_, outcome⟩
          · exact ⟨_, outcome⟩
          · exact ⟨_, outcome⟩
        | illegal rest => exact ⟨_, rfl⟩
        | incomplete => exact ⟨_, rfl⟩
    · exact .inr (.inl ⟨rfl, clear, step_of_faulted wf clear⟩)

/-- A step that leads to a next state does so from any other buffer, differing in the buffer alone, but for what a FLUSH
sends. -/
theorem step_with_mem {s t : State} (stepped : step s = .next t) (m : Memory) :
    ∃ m' sent', step { s with mem := m } = .next { t with mem := m', sent := sent' } ∧
      ((∀ rest, decode s.commands ≠ .command .flush rest) → sent' = t.sent) := by
  obtain ⟨wf, clear, ⟨held, rfl⟩ | ⟨free, doing⟩⟩ := step_cases stepped
  · exact ⟨m, s.sent, (step_of_held (s := { s with mem := m }) wf clear held).trans
      (congrArg Host.Outcome.next (s.takeAnswer_with_mem m s.sent)), fun _ => s.takeAnswer_sent.symm⟩
  · have taken := step_of_ready (s := { s with mem := m }) ⟨wf, clear, free⟩
    obtain ⟨i, rest, decoded, executed⟩ | ⟨rest, decoded, rfl⟩ | ⟨decoded, rfl⟩ := doing
    · simp only [decoded] at taken
      obtain ⟨m', sent', outcome, same⟩ := exec_with_mem executed m
      exact ⟨m', sent', taken.trans outcome, fun other => same fun flush => other rest (flush ▸ decoded)⟩
    · simp only [decoded] at taken
      exact ⟨m, _, taken, fun _ => rfl⟩
    · simp only [decoded] at taken
      exact ⟨m, _, taken, fun _ => rfl⟩

/-- Settles O20: whether a step stops is decided by the configuration and FAULT; otherwise the two steps agree. -/
theorem bufferIsSeenOnlyThroughFlush : Obligations.BufferIsSeenOnlyThroughFlush := by
  refine fun s m => ⟨fun r stopped => ?_, fun r stopped => ?_, fun t stepped => step_with_mem stepped m⟩
  · obtain ⟨-, -, t, outcome⟩ | ⟨wf, faulted, outcome⟩ | ⟨-, outcome⟩ := step_outcome s
    · cases outcome.symm.trans stopped
    · cases outcome.symm.trans stopped
      exact step_of_faulted (s := { s with mem := m }) wf faulted
    · cases outcome.symm.trans stopped
  · obtain ⟨-, -, t, outcome⟩ | ⟨-, -, outcome⟩ | ⟨ill, outcome⟩ := step_outcome s
    · cases outcome.symm.trans stopped
    · cases outcome.symm.trans stopped
    · cases outcome.symm.trans stopped
      exact step_of_ill_formed (s := { s with mem := m }) ill

/-! ### The invariant -/

section Invariant

variable {s : State} (inv : s.Inv)

include inv

theorem State.Inv.withCommands (words : List Word) : (s.withCommands words).Inv :=
  ⟨inv.config, inv.buffer, inv.code, inv.legal, inv.snapshots, inv.faulted⟩

theorem State.Inv.write (ws : List SegmentWrite) : (s.write ws).Inv :=
  ⟨inv.config, Memory.wf_segWrites inv.buffer ws, inv.code, inv.legal, inv.snapshots, inv.faulted⟩

theorem State.Inv.legal_append {r : Response} (legal : r.legal) : ∀ r' ∈ s.responses ++ [r], r'.legal := by
  intro r' mem
  obtain before | last := List.mem_append.1 mem
  · exact inv.legal r' before
  · rw [List.mem_singleton.1 last]
    exact legal

theorem State.Inv.respond {status : Byte} {digits : List SymbolicDigit} (clear : s.fault = 0)
    (legal : (⟨status, digits⟩ : Response).legal) : (s.respond status digits).Inv :=
  ⟨inv.config, inv.buffer, inv.code, inv.legal_append legal, inv.snapshots, fun faulted => absurd clear faulted⟩

/-- R203: the fault's code goes to FAULT and to the last response, and a block that takes a command is not held. -/
theorem State.Inv.enterFault (free : s.held = false) (c : FaultCode) : (s.enterFault c).Inv :=
  ⟨inv.config, inv.buffer, c.value_le_seven, inv.legal_append (Response.legal_fault c), inv.snapshots,
    fun _ => ⟨free, List.getLast?_concat⟩⟩

/-- R152: the snapshot of a whole buffer has BUF_BYTES bytes. -/
theorem State.Inv.handOver : s.handOver.Inv := by
  refine ⟨inv.config, inv.buffer, inv.code, inv.legal, fun bytes mem => ?_, inv.faulted⟩
  obtain before | last := List.mem_append.1 mem
  · exact inv.snapshots bytes before
  · rw [List.mem_singleton.1 last]
    exact Memory.length_bytes inv.buffer

theorem State.Inv.takeAnswer (clear : s.fault = 0) : s.takeAnswer.Inv := by
  have legal : ∀ r ∈ s.takeAnswer.responses, r.legal := by
    obtain ⟨-, r, legal, -, responses⟩ | ⟨-, responses⟩ := s.takeAnswer_responses
    · rw [responses]
      exact inv.legal_append legal
    · rw [responses]
      exact inv.legal
  refine ⟨by simpa using inv.config, by simpa using inv.buffer, by simpa using inv.code, legal,
    by simpa using inv.snapshots, fun faulted => absurd (s.takeAnswer_fault.trans clear) faulted⟩

theorem State.Inv.exec {i : Instr} {t : State} (clear : s.fault = 0) (free : s.held = false)
    (executed : exec i s = .next t) : t.Inv := by
  obtain ⟨c, outcome⟩ | ⟨ws, -, -, outcome⟩ | ⟨_, _, seq, -, -, outcome⟩ | ⟨-, outcome⟩ := exec_cases i s
  · cases outcome.symm.trans executed
    exact inv.enterFault free c
  · cases outcome.symm.trans executed
    exact (inv.write ws).respond clear (Response.legal_ok [])
  · cases outcome.symm.trans executed
    exact inv.respond clear (Response.legal_ok seq)
  · cases outcome.symm.trans executed
    exact inv.handOver.takeAnswer clear

end Invariant

/-- Settles O19: each thing a step can do is made of operations that keep the invariant. -/
theorem everyStepKeepsTheInvariant : Obligations.EveryStepKeepsTheInvariant := by
  intro s t inv stepped
  obtain ⟨-, clear, ⟨-, rfl⟩ | ⟨free, ⟨i, rest, -, executed⟩ | ⟨rest, -, rfl⟩ | ⟨-, rfl⟩⟩⟩ := step_cases stepped
  · exact inv.takeAnswer clear
  · exact (inv.withCommands rest).exec clear free executed
  · exact (inv.withCommands rest).enterFault free .illegalCommand
  · exact inv

/-- Settles O18: the drawn buffer is whole, and nothing has been sent, answered or faulted. -/
theorem powerOnMeetsTheInvariant : Obligations.PowerOnMeetsTheInvariant := fun c draw _ wf => {
  config := wf
  buffer := Memory.wf_ofDraw c.bufBytes draw
  code := Nat.zero_le 7
  legal := fun _ mem => absurd mem List.not_mem_nil
  snapshots := fun _ mem => absurd mem List.not_mem_nil
  faulted := fun faulted => absurd rfl faulted }

/-- Settles O17: reset is power-on with the reference configuration, which is well-formed. -/
theorem resetMeetsTheInvariant : Obligations.ResetMeetsTheInvariant :=
  powerOnMeetsTheInvariant Config.reference Config.powerOnByte Config.transportAnswers (by decide)

/-! ### Reset -/

/-- Settles O59: reset is power-on with the block's own configuration, and is not taken while the block is held. -/
theorem resetClearsFaultAndDrawsTheBuffer : Obligations.ResetClearsFaultAndDrawsTheBuffer := by
  refine fun s draw => ⟨fun held => if_pos held, fun free => ?_⟩
  exact ⟨s.resetBlock draw, if_neg (by simp [free]), rfl, rfl, rfl, rfl, Memory.read_ofDraw s.config.bufBytes draw⟩

end Sys2Proof.Machine
end

section
/-! FLUSH and the transport (41_segment_mapper.md R150 to R152, 60_exceptions.md R208, 70_reset_and_hazards.md R243). -/

namespace Sys2Proof.Machine

/-! ### One FLUSH -/

/-- Settles O45: the snapshot is handed over, and the answer ends the command with its response. -/
theorem flushSendsTheWholeBuffer : Obligations.FlushSendsTheWholeBuffer := by
  intro s answer rest buffer answers ends
  refine ⟨s.mem.bytes, ?_, Memory.length_bytes buffer, Memory.getElem?_bytes buffer⟩
  cases answer with
  | success => exact congrArg Host.Outcome.next (s.handOver.takeAnswer_success answers)
  | failure => exact congrArg Host.Outcome.next (s.handOver.takeAnswer_failure answers)
  | silent => exact absurd rfl ends

/-- Settles O46: without an answer the block is held. -/
theorem flushWithoutAnswerHoldsTheBlock : Obligations.FlushWithoutAnswerHoldsTheBlock :=
  fun s silent => congrArg Host.Outcome.next (s.handOver.takeAnswer_silent silent)

/-- Settles O49: the answer failure ends the FLUSH with a response, and neither FAULT nor the hold is set. -/
theorem transportFailureIsNoFault : Obligations.TransportFailureIsNoFault := by
  intro s rest answers ready decoded failure
  have answer := (s.withCommands rest).handOver.takeAnswer_failure failure
  refine ⟨(s.withCommands rest).handOver.takeAnswer, by rw [step_of_ready ready, decoded]; rfl, ?_⟩
  rw [answer]
  exact ⟨rfl, rfl, rfl, ⟨ready.1, ready.2.1, rfl⟩, rfl⟩

/-! ### The hold (R243) -/

/-- A silent transport, or one that answers no more, drops the answer and keeps the hold. -/
theorem step_of_silent {s : State} (wf : s.config.wf = true) (clear : s.fault = 0) (held : s.held = true)
    (silent : s.answers.head? = none ∨ s.answers.head? = some .silent) :
    step s = .next { s with answers := s.answers.tail } := by
  rw [step_of_held wf clear held, s.takeAnswer_silent silent, ← held]

/-- Settles O47: the step of a held block takes one answer. -/
theorem onlyTheAnswerLiftsTheHold : Obligations.OnlyTheAnswerLiftsTheHold := by
  intro s wf clear held
  have waiting := step_of_held wf clear held
  refine ⟨fun rest success => ?_, fun rest failure => ?_, fun rest silent => ?_, fun none => ?_⟩
  · exact waiting.trans (congrArg Host.Outcome.next (s.takeAnswer_success success))
  · exact waiting.trans (congrArg Host.Outcome.next (s.takeAnswer_failure failure))
  · rw [step_of_silent wf clear held (.inr (by rw [silent]; rfl)), silent]
    rfl
  · rw [step_of_silent wf clear held (.inl (by rw [none]; rfl)), none, List.tail_nil, ← none]

/-- Settles O48: each step drops one silent answer and keeps the hold. -/
theorem silentTransportHoldsForEver : Obligations.SilentTransportHoldsForEver := by
  intro n
  induction n with
  | zero => exact fun s _ _ _ _ => rfl
  | succ n ih =>
    intro s wf clear held silent
    have head : s.answers.head? = none ∨ s.answers.head? = some .silent := by
      cases answers : s.answers with
      | nil => exact .inl rfl
      | cons a rest => exact .inr (congrArg some (silent a (by simp [answers])))
    have rest := ih { s with answers := s.answers.tail } wf clear held fun a mem => silent a (List.mem_of_mem_tail mem)
    rw [run_succ, step_of_silent wf clear held head]
    simpa using rest

/-! ### A failed FLUSH and a later one (R151) -/

/-- The commands the block has begun: those it has responded to, and a FLUSH that holds it. -/
def State.begun (s : State) : Nat := s.responses.length + if s.held then 1 else 0

/-- A FLUSH that takes an answer is one command begun, whether it has ended or not. -/
theorem State.begun_takeAnswer (s : State) : s.takeAnswer.begun = s.responses.length + 1 := by
  obtain ⟨free, r, -, -, responses⟩ | ⟨held, responses⟩ := s.takeAnswer_responses
  · simp [State.begun, free, responses]
  · simp [State.begun, held, responses]

/-- A command that a free block executes is one more command begun. -/
theorem begun_of_exec {i : Instr} {s t : State} (free : s.held = false) (executed : exec i s = .next t) :
    t.begun = s.begun + 1 := by
  obtain ⟨c, outcome⟩ | ⟨ws, -, -, outcome⟩ | ⟨_, _, seq, -, -, outcome⟩ | ⟨-, outcome⟩ := exec_cases i s
  · cases outcome.symm.trans executed
    simp [State.begun, free]
  · cases outcome.symm.trans executed
    simp [State.begun, free]
  · cases outcome.symm.trans executed
    simp [State.begun, free]
  · cases outcome.symm.trans executed
    rw [State.begun_takeAnswer]
    simp [State.begun, free]

/-- A step begins a command, or leaves the buffer and what was sent alone. -/
theorem begun_of_step {s t : State} (stepped : step s = .next t) :
    t.begun = s.begun + 1 ∨ (t.begun = s.begun ∧ t.mem = s.mem ∧ t.sent = s.sent) := by
  obtain ⟨-, -, ⟨held, rfl⟩ | ⟨free, ⟨i, rest, -, executed⟩ | ⟨rest, -, rfl⟩ | ⟨-, rfl⟩⟩⟩ := step_cases stepped
  · exact .inr ⟨by rw [State.begun_takeAnswer]; simp [State.begun, held], s.takeAnswer_mem, s.takeAnswer_sent⟩
  · exact .inl (begun_of_exec (s := s.withCommands rest) free executed)
  · exact .inl (by simp [State.begun, free])
  · exact .inr ⟨rfl, rfl, rfl⟩

/-- A run that begins no command leaves the buffer and what was sent alone. -/
theorem begun_of_reaches {s t : State} (run : Reaches s t) :
    s.begun ≤ t.begun ∧ (t.begun = s.begun → t.mem = s.mem ∧ t.sent = s.sent) := by
  refine reaches_induction (P := fun s t => s.begun ≤ t.begun ∧ (t.begun = s.begun → t.mem = s.mem ∧ t.sent = s.sent))
    (fun _ => ⟨le_rfl, fun _ => ⟨rfl, rfl⟩⟩) (fun {s t u} stepped rest => ?_) run
  obtain ⟨le, same⟩ := rest
  obtain one | ⟨none, mem, sent⟩ := begun_of_step stepped
  · exact ⟨by omega, fun eq => by omega⟩
  · rw [← mem, ← sent, ← none]
    exact ⟨le, same⟩

/-- Settles O50: until the failed FLUSH has responded no other command begins, and only FLUSH hands bytes over. -/
theorem failedFlushCanBeRetried : Obligations.FailedFlushCanBeRetried := by
  refine ⟨fun n s started t flush run free responses => ?_, fun s t stepped sent => ?_⟩
  · cases flush
    have same : t.begun = s.handOver.takeAnswer.begun := by
      rw [State.begun_takeAnswer]
      simp [State.begun, free, responses]
    obtain ⟨mem, sent⟩ := (begun_of_reaches ⟨n, run⟩).2 same
    rw [State.takeAnswer_mem, State.handOver_mem] at mem
    rw [State.takeAnswer_sent, State.handOver_sent] at sent
    refine ⟨mem, s.mem.bytes, sent, fun u buffer => ⟨_, exec_flush u, ?_⟩⟩
    rw [State.takeAnswer_sent, State.handOver_sent, buffer, mem]
  · obtain ⟨-, -, ⟨-, rfl⟩ | ⟨free, ⟨i, rest, decoded, executed⟩ | ⟨rest, -, rfl⟩ | ⟨-, rfl⟩⟩⟩ := step_cases stepped
    · exact absurd s.takeAnswer_sent sent
    · obtain ⟨c, outcome⟩ | ⟨ws, -, -, outcome⟩ | ⟨_, _, seq, -, -, outcome⟩ | ⟨rfl, -⟩ :=
        exec_cases i (s.withCommands rest)
      · cases outcome.symm.trans executed
        exact absurd rfl sent
      · cases outcome.symm.trans executed
        exact absurd rfl sent
      · cases outcome.symm.trans executed
        exact absurd rfl sent
      · exact ⟨free, rest, decoded⟩
    · exact absurd rfl sent
    · exact absurd rfl sent

end Sys2Proof.Machine
end

section
/-! The consumer operations (42_consumer_api.md) and the pseudo-instructions (30_encoding.md R75). -/

namespace Sys2Proof.Machine

/-! ### RENDER -/

/-- The writes of a sequence, parted at one of its cells. -/
theorem sequenceWrites_eq_append {glyph : Vector Byte 11} {tables : List SegmentTable} {seq : List SymbolicDigit}
    {p : Nat} {table : SegmentTable} {c : SymbolicDigit} (at_p : tables[p]? = some table) (cell : seq[p]? = some c) :
    sequenceWrites glyph tables seq =
      sequenceWrites glyph (tables.take p) (seq.take p) ++ applyWrites glyph table c ++
        sequenceWrites glyph (tables.drop (p + 1)) (seq.drop (p + 1)) := by
  induction p generalizing tables seq with
  | zero =>
    cases tables with
    | nil => cases at_p
    | cons t tables =>
      cases seq with
      | nil => cases cell
      | cons d seq =>
        cases at_p
        cases cell
        rfl
  | succ p ih =>
    cases tables with
    | nil => cases at_p
    | cons t tables =>
      cases seq with
      | nil => cases cell
      | cons d seq =>
        have rest := ih (tables := tables) (seq := seq) at_p cell
        simp only [sequenceWrites, List.zipWith_cons_cons, List.flatten_cons, List.take_succ_cons, List.drop_succ_cons,
          List.append_assoc] at rest ⊢
        rw [rest]

/-- What no entry of the first positions has, no write of a sequence of that many cells has. -/
theorem forall_mem_sequenceWrites {P : SegmentAddress → Prop} {tables : List SegmentTable} {seq : List SymbolicDigit}
    (h : ∀ t ∈ tables.take seq.length, ∀ j : Fin 8, P t[j]) (glyph : Vector Byte 11) :
    ∀ w ∈ sequenceWrites glyph tables seq, P w.address := by
  intro w mem
  obtain ⟨t, taken, j, address⟩ := mem_sequenceWrites mem
  rw [address]
  exact h t taken j

/-- Settles O51: after the writes of cell p come only those of the later positions below W. -/
theorem renderDrawsEveryCell : Obligations.RenderDrawsEveryCell := by
  intro s g width value tables wf buffer group fits finite
  have encoded := encodeDigits_of_finite finite width
  have length := length_of_encodeDigits encoded
  refine ⟨_, _, encoded, exec_of_storedWrites_inr rfl (storedWrites_render group fits encoded), ?_, ?_, ?_⟩
  · intro o k p j table c at_p cell names later_segments later_positions
    obtain ⟨b, byte⟩ := Memory.exists_read_of_names buffer
      (Config.position_offset_lt wf group (List.mem_of_getElem? at_p) j) names
    have byte_before (ws : List SegmentWrite) : (segWrites ws s.mem).read o = some (byteAfter ws o b) := by
      rw [read_segWrites, byte, Option.map_some]
    rw [sequenceWrites_eq_append at_p cell, segWrites_append, segWrites_append, bit_segWrites_of_not_named]
    · exact bit_applyWrites_of_last (byte_before _) names later_segments _ c
    · refine forall_mem_sequenceWrites (P := fun a => a.names o k = false) (fun t taken j' => ?_) _
      obtain ⟨q, bound, rfl⟩ := List.mem_take_iff_getElem.1 taken
      rw [List.length_drop, length, List.length_drop] at bound
      rw [List.getElem_drop]
      exact later_positions (p + 1 + q) _ (by omega) (by omega) (List.getElem?_eq_getElem _) j'
  · intro o k unnamed
    rw [← length] at unnamed
    exact bit_segWrites_of_not_named (forall_mem_sequenceWrites (P := fun a => a.names o k = false) unnamed _) s.mem
  · intro o unaddressed
    rw [← length] at unaddressed
    exact read_segWrites_of_not_addressed
      (forall_mem_sequenceWrites (P := fun a => a.offset.toNat ≠ o) unaddressed _) s.mem

/-- A command that leaves no fault is followed by the rest of the list. -/
theorem execAll_cons {i : Instr} {is : List Instr} {s t : State} (executed : exec i s = .next t) (clear : t.fault = 0) :
    execAll (i :: is) s = execAll is t := by
  rw [execAll, executed]
  exact if_pos clear

/-- SETDIGs at successive positions from `n` on perform the writes of the sequence there, one response each. -/
theorem execAll_setdigs {g : Nat} {tables : List SegmentTable} (seq : List SymbolicDigit) {n : Nat} {s : State}
    (clear : s.fault = 0) (group : s.config.groups[g]? = some tables) (fits : n + seq.length ≤ tables.length) :
    execAll (seq.mapIdx fun p c => .setdig g (n + p) (codeNumber c)) s =
      .next { s with
        mem := segWrites (sequenceWrites s.config.glyph (tables.drop n) seq) s.mem
        responses := s.responses ++ List.replicate seq.length ⟨statusOk, []⟩ } := by
  induction seq generalizing n s with
  | nil => simp [execAll, sequenceWrites, segWrites]
  | cons c seq ih =>
    rw [List.length_cons] at fits
    have position : tables[n]? = some tables[n] := List.getElem?_eq_getElem (by omega)
    have first := exec_of_storedWrites_inr (s := s) rfl (storedWrites_setdig group position (rfl : codeNumber c = _))
    have rest := ih (n := n + 1)
      (s := { s with
        mem := segWrites (applyWrites s.config.glyph tables[n] c) s.mem, responses := s.responses ++ [⟨statusOk, []⟩] })
      clear group (by omega)
    have parts : tables.drop n = tables[n] :: tables.drop (n + 1) := List.drop_eq_getElem_cons (by omega)
    have shift : (fun p c => Instr.setdig g (n + (p + 1)) (codeNumber c)) =
        fun p c => .setdig g (n + 1 + p) (codeNumber c) := by
      funext p c
      rw [Nat.add_assoc, Nat.add_comm 1 p]
    have writes : sequenceWrites s.config.glyph (tables.drop n) (c :: seq) =
        applyWrites s.config.glyph tables[n] c ++ sequenceWrites s.config.glyph (tables.drop (n + 1)) seq := by
      rw [parts]
      rfl
    rw [List.mapIdx_cons, Nat.add_zero, shift, execAll_cons first clear, rest, writes, segWrites_append]
    simp [List.replicate_succ]

/-- Settles O52: both sides perform the writes of the sequence. -/
theorem renderIsEncodeThenSetdigs : Obligations.RenderIsEncodeThenSetdigs := by
  intro s g width value tables seq clear group fits encoded
  have length := length_of_encodeDigits encoded
  have setdigs := execAll_setdigs seq (n := 0) clear group (by omega)
  refine ⟨_, exec_of_storedWrites_inr rfl (storedWrites_render group fits encoded), ?_⟩
  simp only [length, List.drop_zero, Nat.zero_add] at setdigs
  exact setdigs

/-- Settles O53: a cause that applies makes the command take its fault, and a well-formed position has its bytes. -/
theorem faultingRenderWritesNothing : Obligations.FaultingRenderWritesNothing := by
  intro s g width value causes
  refine ⟨?_, fun wf buffer tables group t mem j =>
    (Memory.read_isSome_iff buffer _).2 (Config.position_offset_lt wf group mem j)⟩
  have cause : ∃ d, s.faultCause (.render g width value) d := by
    obtain no_group | short | nonfinite := causes
    · exact ⟨.badSelect, no_group⟩
    · exact ⟨.badPosition, short⟩
    · exact ⟨.nonfinite, nonfinite⟩
  obtain ⟨d, applies⟩ := cause
  obtain ⟨c, fault, -⟩ | ⟨-, no_cause⟩ := commandFault_spec s (.render g width value)
  · exact ⟨_, exec_of_commandFault fault, c.value_ne_zero, rfl, rfl⟩
  · exact absurd applies (no_cause d)

/-! ### BAR -/

/-- A threshold that names a bit, with no later one that does, decides it by the level (R165, R167). -/
theorem bit_barWrites_of_last {thresholds : List SegmentAddress} {m : Memory} {o k j : Nat} {b : Byte}
    {a : SegmentAddress} (byte : m.read o = some b) (at_j : thresholds[j]? = some a) (names : a.names o k = true)
    (later : ∀ j' a', j < j' → thresholds[j']? = some a' → a'.names o k = false) (level : Nat) :
    (segWrites (barWrites thresholds level) m).bit o k = decide (j < level) := by
  refine bit_segWrites_of_last (w := ⟨a, decide (j < level)⟩) byte (by rw [getElem?_barWrites, at_j]; rfl) names
    fun j' w lt at_j' => ?_
  rw [getElem?_barWrites, Option.map_eq_some_iff] at at_j'
  obtain ⟨a', threshold, rfl⟩ := at_j'
  exact later j' a' lt threshold

/-- Settles O54: the last threshold that names a bit decides it. -/
theorem barFillsTheThresholds : Obligations.BarFillsTheThresholds := by
  intro s b level thresholds wf buffer bar fits
  refine ⟨_, exec_of_storedWrites_inr rfl (storedWrites_bar bar fits), fun o k j a at_j names later => ?_,
    fun o k unnamed => ?_, fun o unaddressed => ?_⟩
  · obtain ⟨_, byte⟩ := Memory.exists_read_of_names buffer
      (Config.threshold_offset_lt wf bar (List.mem_of_getElem? at_j)) names
    exact bit_barWrites_of_last byte at_j names later level
  · exact bit_segWrites_of_not_named (fun w mem => unnamed _ (address_mem_of_mem_barWrites mem)) s.mem
  · exact read_segWrites_of_not_addressed (fun w mem => unaddressed _ (address_mem_of_mem_barWrites mem)) s.mem

/-- R168: of thresholds that name pairwise disjoint bits the one that names a bit decides it. -/
theorem bit_barWrites_of_disjoint {thresholds : List SegmentAddress} {m : Memory} {o k j : Nat} {b : Byte}
    {a : SegmentAddress}
    (disjoint : thresholds.Pairwise fun a a' => ∀ o k, ¬ (a.names o k = true ∧ a'.names o k = true))
    (byte : m.read o = some b) (at_j : thresholds[j]? = some a) (names : a.names o k = true) (level : Nat) :
    (segWrites (barWrites thresholds level) m).bit o k = decide (j < level) := by
  refine bit_barWrites_of_last byte at_j names (fun j' a' lt at_j' => ?_) level
  obtain ⟨bound, rfl⟩ := List.getElem?_eq_some_iff.1 at_j
  obtain ⟨bound', rfl⟩ := List.getElem?_eq_some_iff.1 at_j'
  simpa [names] using List.pairwise_iff_getElem.1 disjoint j j' bound bound' lt o k

/-- Settles O55: threshold j is lit exactly when j is below the level, which grows with the level. -/
theorem disjointThresholdsLightUpToTheLevel : Obligations.DisjointThresholdsLightUpToTheLevel := by
  intro s t t' b level level' thresholds wf buffer bar le fits disjoint executed executed'
  cases (exec_of_storedWrites_inr rfl (storedWrites_bar bar (le.trans fits))).symm.trans executed
  cases (exec_of_storedWrites_inr rfl (storedWrites_bar bar fits)).symm.trans executed'
  have lit {j : Nat} {a : SegmentAddress} (at_j : thresholds[j]? = some a) {o k : Nat} (names : a.names o k = true)
      (l : Nat) : (segWrites (barWrites thresholds l) s.mem).bit o k = decide (j < l) := by
    obtain ⟨_, byte⟩ := Memory.exists_read_of_names buffer
      (Config.threshold_offset_lt wf bar (List.mem_of_getElem? at_j)) names
    exact bit_barWrites_of_disjoint disjoint byte at_j names l
  refine ⟨fun j a at_j o k names => lit at_j names level, fun a mem o k names on => ?_⟩
  obtain ⟨j, at_j⟩ := List.mem_iff_getElem?.1 mem
  have below := (lit at_j names level).symm.trans on
  rw [decide_eq_true_eq] at below
  exact (lit at_j names level').trans (decide_eq_true (below.trans_le le))

/-! ### Pseudo-instructions -/

/-- Level 0 clears every bit a threshold names. -/
theorem bit_barWrites_zero {thresholds : List SegmentAddress} {a : SegmentAddress} {o k : Nat} (mem : a ∈ thresholds)
    (names : a.names o k = true) (m : Memory) : (segWrites (barWrites thresholds 0) m).bit o k = false := by
  refine bit_segWrites_of_all_off (fun w mem_w => ?_) ?_ m
  · obtain ⟨j, bound, rfl⟩ := List.mem_mapIdx.1 mem_w
    rfl
  · obtain ⟨j, at_j⟩ := List.mem_iff_getElem?.1 mem
    exact ⟨⟨a, false⟩, List.mem_iff_getElem?.2 ⟨j, by rw [getElem?_barWrites, at_j]; rfl⟩, names⟩

/-- Settles O56: each expansion is a command whose writes are known. -/
theorem pseudoInstructionsDoWhatTheySay : Obligations.PseudoInstructionsDoWhatTheySay := by
  intro s wf buffer done
  obtain ⟨⟨least, most⟩, -⟩ := s.config.wf_iff.1 wf
  refine ⟨fun off inside => ?_, fun off inside => ?_, ?_, fun b thresholds bar => ?_,
    fun g pos tables table group position => ?_, fun g tables value group => ?_⟩
  · obtain ⟨old, byte⟩ := (Memory.read_isSome_iff buffer off).2 inside
    refine ⟨_, exec_clrseg inside 0xFF, (read_byteWrite_same (by omega) 0xFF false byte).trans ?_⟩
    simp [segByte]
  · obtain ⟨old, byte⟩ := (Memory.read_isSome_iff buffer off).2 inside
    refine ⟨_, exec_setseg inside 0xFF, (read_byteWrite_same (by omega) 0xFF true byte).trans ?_⟩
    have full : old ||| 0xFF#8 = 0xFF#8 := by simpa using BitVec.or_allOnes (x := old)
    exact congrArg some full
  · have nothing : segWrites [byteWrite 0 0x00 true] s.mem = s.mem := segWrite_of_mask_eq_zero rfl s.mem
    have executed := exec_setseg least 0x00
    rwa [nothing] at executed
  · exact ⟨_, exec_of_storedWrites_inr rfl (storedWrites_bar bar (Nat.zero_le _)),
      fun a mem o k names => bit_barWrites_zero mem names s.mem⟩
  · exact ⟨_, exec_of_storedWrites_inr rfl (storedWrites_setdig group position rfl),
      fun j o k names => (blankClearsThePosition s.config.glyph table s.mem o k).1 ⟨j, names⟩⟩
  · have expansion : expandPseudo s.config (.showValue g value) = .render g tables.length value := by
      simp [expandPseudo, group]
    have writes (finite : isNonfinite value = false) :=
      storedWrites_render group le_rfl (encodeDigits_of_finite finite tables.length)
    rw [← expansion] at writes
    exact ⟨expansion, fun finite => ⟨_, exec_of_storedWrites_inr (by rw [expansion]; rfl) (writes finite)⟩⟩

end Sys2Proof.Machine
end

section
/-! Decimal literals (30_encoding.md R74): the image of a literal is that of the nearest binary64, a tie going to the
even fraction. All distances are compared as integers, in units of 1 / (den · 2^1074). -/

namespace Sys2Proof.Machine

/-! ### Rounding to the nearest integer -/

/-- The rounded quotient is within half a unit, and exactly half a unit off only when it is even. -/
theorem roundTiesToEven_spec {a b : Nat} (pos : 0 < b) :
    2 * (roundTiesToEven a b * b) ≤ 2 * a + b ∧ 2 * a ≤ 2 * (roundTiesToEven a b * b) + b ∧
      (2 * a + b = 2 * (roundTiesToEven a b * b) ∨ 2 * a = 2 * (roundTiesToEven a b * b) + b →
        roundTiesToEven a b % 2 = 0) := by
  have division := Nat.div_add_mod' a b
  have remainder := Nat.mod_lt a pos
  have up : (a / b + 1) * b = a / b * b + b := Nat.succ_mul _ _
  have parity : a / b % 2 = 0 ∨ a / b % 2 = 1 := Nat.mod_two_eq_zero_or_one _
  unfold roundTiesToEven
  dsimp only
  split_ifs with below above
  · omega
  · rw [up]
    omega
  · obtain even | odd := parity
    · rw [even, Nat.add_zero]
      omega
    · rw [odd, up]
      omega

/-- No integer is nearer to a quotient than the rounded one, and one equally near leaves it even. -/
theorem roundTiesToEven_nearest {a b : Nat} (pos : 0 < b) (k : Nat) :
    |(a : ℤ) - roundTiesToEven a b * b| < |(a : ℤ) - k * b| ∨ k = roundTiesToEven a b ∨
      (|(a : ℤ) - roundTiesToEven a b * b| = |(a : ℤ) - k * b| ∧ roundTiesToEven a b % 2 = 0) := by
  obtain ⟨upper, lower, tie⟩ := roundTiesToEven_spec (a := a) pos
  generalize roundTiesToEven a b = r at upper lower tie ⊢
  zify at upper lower tie
  obtain less | rfl | greater := lt_trichotomy k r
  · have apart : (k : ℤ) * b + b ≤ r * b := by
      have := Nat.mul_le_mul_right b less
      rw [Nat.succ_mul] at this
      exact_mod_cast this
    generalize (k : ℤ) * b = kb at apart ⊢
    generalize (r : ℤ) * b = rb at apart upper lower tie ⊢
    rw [abs_of_nonneg (a := (a : ℤ) - kb) (by omega)]
    obtain positive | negative := abs_cases ((a : ℤ) - rb) <;> omega
  · exact .inr (.inl rfl)
  · have apart : (r : ℤ) * b + b ≤ k * b := by
      have := Nat.mul_le_mul_right b greater
      rw [Nat.succ_mul] at this
      exact_mod_cast this
    generalize (k : ℤ) * b = kb at apart ⊢
    generalize (r : ℤ) * b = rb at apart upper lower tie ⊢
    rw [abs_of_nonpos (a := (a : ℤ) - kb) (by omega)]
    obtain positive | negative := abs_cases ((a : ℤ) - rb) <;> omega

theorem roundTiesToEven_le {a b h : Nat} (pos : 0 < b) (below : a ≤ h * b) : roundTiesToEven a b ≤ h := by
  obtain ⟨upper, -, -⟩ := roundTiesToEven_spec (a := a) pos
  by_contra above
  have := Nat.mul_le_mul_right b (not_le.1 above)
  rw [Nat.succ_mul] at this
  omega

theorem le_roundTiesToEven {a b l : Nat} (pos : 0 < b) (above : l * b ≤ a) : l ≤ roundTiesToEven a b := by
  obtain ⟨-, lower, -⟩ := roundTiesToEven_spec (a := a) pos
  by_contra below
  have := Nat.mul_le_mul_right b (not_le.1 below)
  rw [Nat.succ_mul] at this
  omega

/-- An even integer is reached from half a unit below on. -/
theorem le_roundTiesToEven_iff {a b h : Nat} (pos : 0 < b) (even : h % 2 = 0) :
    h ≤ roundTiesToEven a b ↔ 2 * (h * b) ≤ 2 * a + b := by
  obtain ⟨upper, lower, tie⟩ := roundTiesToEven_spec (a := a) pos
  constructor
  · intro above
    have := Nat.mul_le_mul_right b above
    omega
  · intro near
    by_contra below
    have step := Nat.mul_le_mul_right b (Nat.succ_le_of_lt (not_le.1 below))
    have parts : (roundTiesToEven a b + 1) * b = roundTiesToEven a b * b + b := Nat.succ_mul _ _
    have next : roundTiesToEven a b + 1 ≠ h := by
      rintro rfl
      have := tie (.inr (by omega))
      omega
    have skip := Nat.mul_le_mul_right b (Nat.succ_le_of_lt (Nat.lt_of_le_of_ne (not_le.1 below) next))
    have parts' : (roundTiesToEven a b + 1 + 1) * b = (roundTiesToEven a b + 1) * b + b := Nat.succ_mul _ _
    simp only [Nat.succ_eq_add_one] at skip step
    omega

/-! ### Images as numbers -/

/-- The magnitude of an image without sign bit, in units of 2^(−1074). -/
def imageUnits (n : Nat) : Nat := if n / 2 ^ 52 = 0 then n % 2 ^ 52 else (2 ^ 52 + n % 2 ^ 52) * 2 ^ (n / 2 ^ 52 - 1)

section Image

variable {n : Nat}

theorem fractionBits_ofNat : fractionBits (BitVec.ofNat 64 n) = n % 2 ^ 52 := by
  rw [fractionBits, BitVec.extractLsb'_toNat, BitVec.toNat_ofNat, Nat.shiftRight_eq_div_pow]
  omega

variable (h : n < 2 ^ 63)

include h

theorem biasedExponent_ofNat : biasedExponent (BitVec.ofNat 64 n) = n / 2 ^ 52 := by
  rw [biasedExponent, BitVec.extractLsb'_toNat, BitVec.toNat_ofNat, Nat.shiftRight_eq_div_pow]
  omega

theorem magnitudeUnits_ofNat : magnitudeUnits (BitVec.ofNat 64 n) = imageUnits n := by
  rw [magnitudeUnits, biasedExponent_ofNat h, fractionBits_ofNat, imageUnits]

theorem signBit_ofNat : signBit (BitVec.ofNat 64 n) = false := by
  rw [signBit, BitVec.getLsbD_ofNat, Nat.testBit_lt_two_pow h, Bool.and_false]

theorem isNonfinite_ofNat : isNonfinite (BitVec.ofNat 64 n) = true ↔ n / 2 ^ 52 = 2047 := by
  rw [isNonfinite, biasedExponent_ofNat h, beq_iff_eq]

end Image

/-- `r` units of 2^s are the magnitude of the image s · 2^52 + r: the exponent field counts on when r reaches 2^53. -/
theorem imageUnits_scaled {s r : Nat} (least : s = 0 ∨ 2 ^ 52 ≤ r) (most : r ≤ 2 ^ 53) :
    imageUnits (s * 2 ^ 52 + r) = r * 2 ^ s := by
  unfold imageUnits
  obtain subnormal | normal := Nat.lt_or_ge r (2 ^ 52)
  · obtain rfl : s = 0 := least.resolve_right (not_le.2 subnormal)
    rw [if_pos (by omega), pow_zero]
    omega
  · rw [if_neg (by omega)]
    obtain inside | carried := Nat.lt_or_eq_of_le most
    · have exponent : (s * 2 ^ 52 + r) / 2 ^ 52 - 1 = s := by omega
      have fraction : 2 ^ 52 + (s * 2 ^ 52 + r) % 2 ^ 52 = r := by omega
      rw [exponent, fraction]
    · have exponent : (s * 2 ^ 52 + r) / 2 ^ 52 - 1 = s + 1 := by omega
      have fraction : 2 ^ 52 + (s * 2 ^ 52 + r) % 2 ^ 52 = 2 ^ 52 := by omega
      rw [exponent, fraction, carried, pow_succ 2 s, pow_succ 2 52, Nat.mul_assoc, Nat.mul_comm 2]

/-- A magnitude is a whole number of units of 2^s, or lies below the numbers whose spacing is 2^s. -/
theorem magnitudeUnits_multiple_or_lt (y : DWord) (s : Nat) :
    (∃ k, magnitudeUnits y = k * 2 ^ s) ∨ (s ≠ 0 ∧ magnitudeUnits y < 2 ^ 52 * 2 ^ s) := by
  have fraction : fractionBits y < 2 ^ 52 := BitVec.isLt _
  obtain rfl | positive := Nat.eq_zero_or_pos s
  · exact .inl ⟨magnitudeUnits y, by rw [pow_zero, Nat.mul_one]⟩
  unfold magnitudeUnits
  split
  case isTrue subnormal =>
    exact .inr ⟨positive.ne', fraction.trans_le (Nat.le_mul_of_pos_right _ (Nat.two_pow_pos s))⟩
  case isFalse normal =>
    obtain fine | coarse := Nat.lt_or_ge (biasedExponent y - 1) s
    · refine .inr ⟨positive.ne', ?_⟩
      calc (2 ^ 52 + fractionBits y) * 2 ^ (biasedExponent y - 1)
          < 2 ^ 52 * 2 * 2 ^ (biasedExponent y - 1) := Nat.mul_lt_mul_of_pos_right (by omega) (Nat.two_pow_pos _)
        _ = 2 ^ 52 * 2 ^ (biasedExponent y - 1 + 1) := by
          rw [pow_succ 2 (biasedExponent y - 1), Nat.mul_assoc, Nat.mul_comm 2]
        _ ≤ 2 ^ 52 * 2 ^ s := Nat.mul_le_mul_left _ (Nat.pow_le_pow_right (by decide) fine)
    · refine .inl ⟨(2 ^ 52 + fractionBits y) * 2 ^ (biasedExponent y - 1 - s), ?_⟩
      rw [Nat.mul_assoc, ← pow_add, Nat.sub_add_cancel coarse]

/-! ### The image of a literal -/

/-- num / den in units of 2^(−1074), over den. -/
def literalUnits (num : Nat) : Nat := num * unitsPerOne

/-- The unit in the last place at num / den, over den. -/
def literalSpacing (num den : Nat) : Nat := den * 2 ^ literalScale num den

/-- num / den in units in the last place, rounded. -/
def literalSteps (num den : Nat) : Nat := roundTiesToEven (literalUnits num) (literalSpacing num den)

theorem nearestImage_eq (num den : Nat) :
    nearestImage num den = min (literalScale num den * 2 ^ 52 + literalSteps num den) (2047 * 2 ^ 52) := rfl

section Literal

variable {num den : Nat} (pos : 0 < den)

include pos

theorem literalSpacing_pos : 0 < literalSpacing num den := Nat.mul_pos pos (Nat.two_pow_pos _)

/-- Below 2^53 units in the last place. -/
theorem literalUnits_lt : literalUnits num < 2 ^ 53 * literalSpacing num den := by
  have log : literalUnits num / den < 2 ^ (literalScale num den + 53) := by
    refine (Nat.lt_log2_self (n := literalUnits num / den)).trans_le (Nat.pow_le_pow_right (by decide) ?_)
    rw [literalScale, ← literalUnits]
    omega
  rw [Nat.div_lt_iff_lt_mul pos, pow_add] at log
  calc literalUnits num < 2 ^ literalScale num den * 2 ^ 53 * den := log
    _ = 2 ^ 53 * literalSpacing num den := by rw [literalSpacing]; ring

/-- At least 2^52 units in the last place, but where the spacing is the least there is. -/
theorem le_literalUnits : literalScale num den = 0 ∨ 2 ^ 52 * literalSpacing num den ≤ literalUnits num := by
  by_cases least : literalScale num den = 0
  · exact .inl least
  · right
    have exponent : literalScale num den + 52 = Nat.log2 (literalUnits num / den) := by
      rw [literalScale, ← literalUnits] at least ⊢
      omega
    have nonzero : literalUnits num / den ≠ 0 := by
      intro zero
      rw [zero, Nat.log2_zero] at exponent
      omega
    have log := Nat.log2_self_le nonzero
    rw [← exponent, Nat.le_div_iff_mul_le pos, pow_add] at log
    calc 2 ^ 52 * literalSpacing num den = 2 ^ literalScale num den * 2 ^ 52 * den := by rw [literalSpacing]; ring
      _ ≤ literalUnits num := log

theorem literalSteps_le : literalSteps num den ≤ 2 ^ 53 :=
  roundTiesToEven_le (literalSpacing_pos pos) (literalUnits_lt pos).le

theorem le_literalSteps : literalScale num den = 0 ∨ 2 ^ 52 ≤ literalSteps num den :=
  (le_literalUnits pos).imp_right (le_roundTiesToEven (literalSpacing_pos pos))

/-- Overflow, where e + 1 is the scale of the last binade: from half a unit below its end on. -/
theorem overflow_iff (e : Nat) :
    (e + 3) * 2 ^ 52 ≤ literalScale num den * 2 ^ 52 + literalSteps num den ↔
      (2 ^ 54 - 1) * (den * 2 ^ e) ≤ literalUnits num := by
  have steps := literalSteps_le (num := num) pos
  have below := literalUnits_lt (num := num) pos
  obtain lower | last | upper := lt_trichotomy (literalScale num den) (e + 1)
  · have spacing : literalSpacing num den ≤ den * 2 ^ e :=
      Nat.mul_le_mul_left den (Nat.pow_le_pow_right (by decide) (Nat.le_of_lt_succ lower))
    generalize den * 2 ^ e = half at spacing ⊢
    omega
  · have spacing : literalSpacing num den = 2 * (den * 2 ^ e) := by
      rw [literalSpacing, last, pow_succ, ← Nat.mul_assoc, Nat.mul_comm]
    have reached :=
      le_roundTiesToEven_iff (a := literalUnits num) (h := 2 ^ 53) (literalSpacing_pos (num := num) pos) rfl
    rw [← literalSteps, spacing] at reached
    rw [last]
    generalize den * 2 ^ e = half at reached ⊢
    omega
  · have spacing : 4 * (den * 2 ^ e) ≤ literalSpacing num den := by
      calc 4 * (den * 2 ^ e) = den * 2 ^ (e + 2) := by ring
        _ ≤ literalSpacing num den := Nat.mul_le_mul_left den (Nat.pow_le_pow_right (by decide) upper)
    have least := le_literalSteps (num := num) pos
    have above := le_literalUnits (num := num) pos
    generalize den * 2 ^ e = half at spacing ⊢
    omega

end Literal

/-- A finite image is the rounded number of units in the last place. -/
theorem magnitudeUnits_nearestImage {num den : Nat} (pos : 0 < den)
    (finite : literalScale num den * 2 ^ 52 + literalSteps num den < 2047 * 2 ^ 52) :
    magnitudeUnits (BitVec.ofNat 64 (nearestImage num den)) = literalSteps num den * 2 ^ literalScale num den := by
  rw [nearestImage_eq, min_eq_left finite.le, magnitudeUnits_ofNat (by omega),
    imageUnits_scaled (le_literalSteps pos) (literalSteps_le pos)]

/-- In units of 1 / (den · 2^1074), the image of a literal is at least as near as any other magnitude. -/
theorem literalSteps_nearest {num den : Nat} (pos : 0 < den) (y : DWord) :
    let near : ℤ := literalUnits num - (literalSteps num den * 2 ^ literalScale num den : Nat) * den
    let other : ℤ := literalUnits num - (magnitudeUnits y : ℤ) * den
    |near| < |other| ∨ magnitudeUnits y = literalSteps num den * 2 ^ literalScale num den ∨
      (|near| = |other| ∧ literalSteps num den % 2 = 0) := by
  intro near other
  have spacing_pos := literalSpacing_pos (num := num) pos
  have spaced (k : Nat) : ((k * 2 ^ literalScale num den : Nat) : ℤ) * den = k * (literalSpacing num den : ℤ) := by
    rw [literalSpacing]
    push_cast
    ring
  have near_eq : near = literalUnits num - literalSteps num den * (literalSpacing num den : ℤ) :=
    congrArg ((literalUnits num : ℤ) - ·) (spaced _)
  obtain ⟨k, multiple⟩ | ⟨coarse, low⟩ := magnitudeUnits_multiple_or_lt y (literalScale num den)
  · have other_eq : other = literalUnits num - k * (literalSpacing num den : ℤ) := by
      simp only [other, multiple, spaced]
    rw [near_eq, other_eq, multiple]
    obtain nearer | rfl | tie := roundTiesToEven_nearest (a := literalUnits num) spacing_pos k
    · exact .inl nearer
    · exact .inr (.inl rfl)
    · exact .inr (.inr tie)
  · left
    have above := (le_literalUnits (num := num) pos).resolve_left coarse
    have beyond : (magnitudeUnits y : ℤ) * den < 2 ^ 52 * literalSpacing num den := by
      have := Nat.mul_lt_mul_of_pos_right low pos
      rw [Nat.mul_assoc, Nat.mul_comm (2 ^ _) den] at this
      exact_mod_cast this
    have nearest : |near| ≤ |(literalUnits num : ℤ) - (2 ^ 52 : Nat) * (literalSpacing num den : ℤ)| := by
      rw [near_eq]
      obtain nearer | same | ⟨tie, -⟩ := roundTiesToEven_nearest (a := literalUnits num) spacing_pos (2 ^ 52)
      · exact nearer.le
      · rw [literalSteps, ← same]
      · exact tie.le
    zify at above
    have nonneg : 0 ≤ (literalUnits num : ℤ) - (2 ^ 52 : Nat) * (literalSpacing num den : ℤ) := by push_cast; omega
    rw [abs_of_nonneg nonneg] at nearest
    refine nearest.trans_lt (lt_of_lt_of_le ?_ (le_abs_self other))
    push_cast
    omega

/-- The distance of a magnitude from num / den, over den · 2^1074. -/
theorem literal_distance_eq {den : Nat} (pos : 0 < den) (num m : Nat) :
    |(num : ℚ) / den - (m : ℚ) / unitsPerOne| =
      ((|(literalUnits num : ℤ) - (m : ℤ) * den| : ℤ) : ℚ) / (den * unitsPerOne) := by
  have den_pos : (0 : ℚ) < den := Nat.cast_pos.2 pos
  have units_pos := unitsPerOne_cast_pos
  have scale_pos : (0 : ℚ) < den * unitsPerOne := mul_pos den_pos units_pos
  rw [literalUnits, div_sub_div _ _ den_pos.ne' units_pos.ne', abs_div, abs_of_pos scale_pos]
  push_cast
  rw [mul_comm (den : ℚ) (m : ℚ)]

/-- A threshold in units is the same threshold as a rational. -/
theorem literalUnits_threshold_iff {num den : Nat} (pos : 0 < den) (t p : Nat) :
    t * (den * (p * unitsPerOne)) ≤ literalUnits num ↔ (t : ℚ) * p ≤ (num : ℚ) / den := by
  have regroup : t * (den * (p * unitsPerOne)) = t * p * den * unitsPerOne := by ring
  rw [regroup, literalUnits, Nat.mul_le_mul_right_iff unitsPerOne_pos, le_div_iff₀ (Nat.cast_pos.2 pos)]
  exact_mod_cast Iff.rfl

theorem two_pow_mul_eq {a b c u : Nat} (sum : a + b = c) (power : u = 2 ^ b) : 2 ^ a * u = 2 ^ c := by
  rw [power, ← pow_add, sum]

/-- The middle between the largest finite magnitude and 2^1024, in units. -/
theorem overflow_threshold_iff {num den : Nat} (pos : 0 < den) :
    (2 ^ 54 - 1) * (den * 2 ^ 2044) ≤ literalUnits num ↔ (2 ^ 54 - 1) * 2 ^ 970 ≤ (num : ℚ) / den := by
  have cast_pow (e : Nat) : ((2 ^ e : Nat) : ℚ) = 2 ^ e := by push_cast; rfl
  have threshold := literalUnits_threshold_iff (num := num) pos (2 ^ 54 - 1) (2 ^ 970)
  have units : 2 ^ 970 * unitsPerOne = 2 ^ 2044 := two_pow_mul_eq (rfl : 970 + 1074 = 2044) unitsPerOne.eq_1
  have mantissa : ((2 ^ 54 - 1 : Nat) : ℚ) = 2 ^ 54 - 1 := by norm_num
  rwa [units, cast_pow 970, mantissa] at threshold

/-- Settles O58: the image is the rounded number of steps of the spacing, and overflows from the threshold on. -/
theorem literalIsTheNearestBinary64 : Obligations.LiteralIsTheNearestBinary64 := by
  intro num den pos v x distance
  have small : nearestImage num den < 2 ^ 63 := by
    rw [nearestImage_eq]
    omega
  have infinite_iff : isNonfinite x = true ↔ 2047 * 2 ^ 52 ≤ literalScale num den * 2 ^ 52 + literalSteps num den := by
    rw [isNonfinite_ofNat small, nearestImage_eq]
    omega
  refine ⟨signBit_ofNat small, ?_, fun finite y _ => ?_⟩
  · rw [infinite_iff, overflow_iff pos 2044]
    exact overflow_threshold_iff pos
  · have inside := not_le.1 (mt infinite_iff.2 (by simp [finite]))
    have value : magnitudeUnits x = literalSteps num den * 2 ^ literalScale num den :=
      magnitudeUnits_nearestImage pos inside
    have scale_pos : (0 : ℚ) < den * unitsPerOne := mul_pos (Nat.cast_pos.2 pos) unitsPerOne_cast_pos
    have parity : fractionBits x % 2 = literalSteps num den % 2 := by
      rw [fractionBits_ofNat, nearestImage_eq]
      omega
    simp only [distance, v, literal_distance_eq pos, div_lt_div_iff_of_pos_right scale_pos, parity,
      div_left_inj' scale_pos.ne', Int.cast_lt, Int.cast_inj, value]
    exact literalSteps_nearest pos y

end Sys2Proof.Machine
end

section
/-! The assembler text of a command (30_encoding.md R74): numerals read back as their numbers, operands split at their
commas, and the line of a command read back as that command. -/

namespace Sys2Proof.Machine

/-! ### Numerals -/

theorem digitValue_digitChar {d : Nat} (h : d < 16) : digitValue (digitChar d) = some d := by
  have all : ∀ d : Fin 16, digitValue (digitChar d) = some d.val := by decide
  exact all ⟨d, h⟩

theorem readDigits_append (base acc : Nat) (xs ys : List Char) :
    readDigits base acc (xs ++ ys) = (readDigits base acc xs).bind fun n => readDigits base n ys := by
  induction xs generalizing acc with
  | nil => rfl
  | cons c xs ih =>
    rw [List.cons_append, readDigits, readDigits]
    cases digitValue c with
    | none => rfl
    | some d =>
      by_cases fits : d < base
      · simp only [fits, if_true, ih]
      · simp only [fits, if_false]
        rfl

/-- The last k digits of n read as n modulo base^k. -/
theorem readDigits_numeral {base : Nat} (pos : 0 < base) (small : base ≤ 16) (k n : Nat) :
    readDigits base 0 (numeral base k n) = some (n % base ^ k) := by
  induction k generalizing n with
  | zero => simp [numeral, readDigits, Nat.mod_one]
  | succ k ih =>
    have digit : n % base < base := Nat.mod_lt n pos
    rw [numeral, readDigits_append, ih, Option.bind_some, readDigits, digitValue_digitChar (by omega)]
    simp only [digit, if_true, readDigits]
    rw [pow_succ', Nat.mod_mul, Nat.add_comm]

@[simp] theorem length_numeral (base k n : Nat) : (numeral base k n).length = k := by
  induction k generalizing n with
  | zero => rfl
  | succ k ih => simp [numeral, ih]

theorem numeral_ne_nil {base k n : Nat} (h : k ≠ 0) : numeral base k n ≠ [] :=
  List.ne_nil_of_length_pos (by rw [length_numeral]; omega)

theorem exists_digit_of_mem_numeral {base k n : Nat} (pos : 0 < base) {c : Char} (mem : c ∈ numeral base k n) :
    ∃ d < base, c = digitChar d := by
  induction k generalizing n with
  | zero => cases mem
  | succ k ih =>
    obtain before | last := List.mem_append.1 mem
    · exact ih before
    · exact ⟨n % base, Nat.mod_lt n pos, List.mem_singleton.1 last⟩

/-! ### Operands -/

/-- A character of an operand or a mnemonic: no blank, no comma, no comment. -/
def wordChar (c : Char) : Bool := !isBlank c && c != ',' && c != ';'

/-- A text that stands as a part of a line. -/
def IsWord (w : List Char) : Prop := w ≠ [] ∧ ∀ c ∈ w, wordChar c = true

theorem wordChar_digitChar {d : Nat} (h : d < 16) : wordChar (digitChar d) = true := by
  have all : ∀ d : Fin 16, wordChar (digitChar d) = true := by decide
  exact all ⟨d, h⟩

theorem wordChar_of_mem_numeral {base k n : Nat} (pos : 0 < base) (small : base ≤ 16) :
    ∀ c ∈ numeral base k n, wordChar c = true := by
  intro c mem
  obtain ⟨d, lt, rfl⟩ := exists_digit_of_mem_numeral pos mem
  exact wordChar_digitChar (by omega)

theorem isWord_numeral {base k n : Nat} (pos : 0 < base) (small : base ≤ 16) (nonempty : k ≠ 0) :
    IsWord (numeral base k n) := ⟨numeral_ne_nil nonempty, wordChar_of_mem_numeral pos small⟩

theorem IsWord.cons {c : Char} {w : List Char} (head : wordChar c = true) (rest : ∀ c ∈ w, wordChar c = true) :
    IsWord (c :: w) := ⟨List.cons_ne_nil c w, List.forall_mem_cons.2 ⟨head, rest⟩⟩

theorem isWord_decimalText (n : Nat) : IsWord (decimalText n) :=
  isWord_numeral (by decide) (by decide) (digitCount_pos n).ne'

theorem isWord_maskText (mask : Byte) : IsWord (maskText mask) := by
  have digits := isWord_numeral (base := 16) (k := 2) (n := mask.toNat) (by decide) (by decide) (by decide)
  exact .cons (by decide) (IsWord.cons (by decide) digits.2).2

theorem isWord_valueText (value : DWord) : IsWord (valueText value) := by
  have digits := isWord_numeral (base := 16) (k := 16) (n := value.toNat) (by decide) (by decide) (by decide)
  exact .cons (by decide) (IsWord.cons (by decide) digits.2).2

/-- A number is decimal where its first two characters are not 0x. -/
theorem readNumber_of_decimal {c : Char} {cs : List Char} (decimal : cs.head? ≠ some 'x') :
    readNumber (c :: cs) = readDigits 10 0 (c :: cs) := by
  unfold readNumber
  split
  case h_1 none => cases none
  case h_2 hex => cases hex; exact absurd rfl decimal
  case h_3 same => cases same; rfl

theorem readNumber_decimalText (n : Nat) : readNumber (decimalText n) = some n := by
  have read := readDigits_numeral (base := 10) (by decide) (by decide) (digitCount n) n
  rw [Nat.mod_eq_of_lt (lt_ten_pow_digitCount n)] at read
  have digits : ∀ c ∈ decimalText n, ∃ d < 10, c = digitChar d := fun c => exists_digit_of_mem_numeral (by decide)
  have not_x : ∀ d : Fin 10, digitChar d ≠ 'x' := by decide
  cases text : decimalText n with
  | nil => exact absurd text (isWord_decimalText n).1
  | cons c cs =>
    rw [readNumber_of_decimal, ← text]
    · exact read
    · intro head
      obtain ⟨d, lt, eq⟩ := digits 'x' (by rw [text]; exact List.mem_cons_of_mem c (List.mem_of_mem_head? head))
      exact not_x ⟨d, lt⟩ eq.symm

theorem readMask_maskText (mask : Byte) : readMask (maskText mask) = some mask := by
  have read := readDigits_numeral (base := 16) (by decide) (by decide) 2 mask.toNat
  rw [Nat.mod_eq_of_lt (b := 16 ^ 2) mask.isLt] at read
  have number : readNumber (maskText mask) = some mask.toNat := read
  have bound : mask.toNat < 256 := mask.isLt
  simp [readMask, number, bound]

theorem readValue_valueText (value : DWord) : readValue (valueText value) = some value := by
  have read := readDigits_numeral (base := 16) (by decide) (by decide) 16 value.toNat
  rw [Nat.mod_eq_of_lt (b := 16 ^ 16) value.isLt] at read
  simp [readValue, valueText, read]

/-- A text whose first character starts no code's name is no code's name. -/
theorem codeOfName_eq_none {c : Char} {cs : List Char} (h : c ≠ 'S' ∧ c ≠ 'B' ∧ c ≠ 'D') :
    codeOfName (c :: cs) = none := by
  obtain ⟨not_s, not_b, not_d⟩ := h
  unfold codeOfName
  rw [if_neg (by simp [not_s]), if_neg (by simp [not_b])]
  split
  case h_1 two => cases two; exact if_neg not_d
  case h_2 three => cases three; exact if_neg (fun both => not_d both.1)
  case h_3 => rfl

theorem readCode_decimalText (n : Nat) : readCode (decimalText n) = some n := by
  have digits : ∀ c ∈ decimalText n, ∃ d < 10, c = digitChar d := fun c => exists_digit_of_mem_numeral (by decide)
  have no_name : ∀ d : Fin 10, digitChar d ≠ 'S' ∧ digitChar d ≠ 'B' ∧ digitChar d ≠ 'D' := by decide
  have number := readNumber_decimalText n
  cases text : decimalText n with
  | nil => exact absurd text (isWord_decimalText n).1
  | cons c cs =>
    obtain ⟨d, lt, rfl⟩ := digits c (by rw [text]; exact List.mem_cons_self)
    rw [text] at number
    rw [readCode, codeOfName_eq_none (no_name ⟨d, lt⟩)]
    exact number

/-! ### Blanks and commas -/

theorem dropWhile_of_head? {p : Char → Bool} {l : List Char} (h : ∀ c ∈ l.head?, p c = false) : l.dropWhile p = l := by
  cases l with
  | nil => rfl
  | cons c l => rw [List.dropWhile_cons, if_neg (by simp [h c rfl])]

theorem trimBlanks_eq_self {l : List Char} (head : ∀ c ∈ l.head?, isBlank c = false)
    (last : ∀ c ∈ l.getLast?, isBlank c = false) : trimBlanks l = l := by
  rw [trimBlanks, dropWhile_of_head? head, dropWhile_of_head? (by rwa [List.head?_reverse]), List.reverse_reverse]

theorem trimBlanks_blank_cons (l : List Char) : trimBlanks (' ' :: l) = trimBlanks l := rfl

theorem isBlank_of_wordChar {c : Char} (h : wordChar c = true) : isBlank c = false := by
  simp only [wordChar, Bool.and_eq_true, Bool.not_eq_true'] at h
  exact h.1.1

theorem IsWord.trimBlanks {w : List Char} (h : IsWord w) : trimBlanks w = w :=
  trimBlanks_eq_self (fun c mem => isBlank_of_wordChar (h.2 c (List.mem_of_mem_head? mem)))
    fun c mem => isBlank_of_wordChar (h.2 c (List.mem_of_mem_getLast? mem))

theorem splitCommas_cons {c : Char} {l part : List Char} {parts : List (List Char)}
    (h : splitCommas l = part :: parts) :
    splitCommas (c :: l) = if c = ',' then [] :: part :: parts else (c :: part) :: parts := by
  rw [splitCommas, h]

theorem exists_splitCommas_eq_cons (l : List Char) : ∃ part parts, splitCommas l = part :: parts := by
  induction l with
  | nil => exact ⟨[], [], rfl⟩
  | cons c l ih =>
    obtain ⟨part, parts, h⟩ := ih
    rw [splitCommas_cons h]
    split
    · exact ⟨_, _, rfl⟩
    · exact ⟨_, _, rfl⟩

/-- The characters of a word stay in the part they stand in. -/
theorem splitCommas_append {w : List Char} (word : ∀ c ∈ w, wordChar c = true) {rest part : List Char}
    {parts : List (List Char)} (h : splitCommas rest = part :: parts) :
    splitCommas (w ++ rest) = (w ++ part) :: parts := by
  induction w with
  | nil => exact h
  | cons c w ih =>
    obtain ⟨head, tail⟩ := List.forall_mem_cons.1 word
    have not_comma : c ≠ ',' := by rintro rfl; exact absurd head (by decide)
    rw [List.cons_append, splitCommas_cons (ih tail), if_neg not_comma]
    rfl

/-! ### Joined operands -/

theorem joinOperands_cons_cons (t t' : List Char) (ts : List (List Char)) :
    joinOperands (t :: t' :: ts) = t ++ ',' :: ' ' :: joinOperands (t' :: ts) := rfl

theorem IsWord.ne_semicolon {w : List Char} (h : IsWord w) : ∀ c ∈ w, c ≠ ';' := by
  rintro c mem rfl
  exact absurd (h.2 ';' mem) (by decide)

theorem IsWord.not_blank {w : List Char} (h : IsWord w) : ∀ c ∈ w, (!isBlank c) = true := fun c mem => by
  simp [isBlank_of_wordChar (h.2 c mem)]

section Join

variable {ops : List (List Char)} (words : ∀ w ∈ ops, IsWord w)

include words

theorem joinOperands_ne_nil (nonempty : ops ≠ []) : joinOperands ops ≠ [] := by
  match ops with
  | [] => exact absurd rfl nonempty
  | [t] => exact (words t List.mem_cons_self).1
  | t :: t' :: ts => simp [joinOperands_cons_cons]

theorem ne_semicolon_of_mem_joinOperands : ∀ c ∈ joinOperands ops, c ≠ ';' := by
  induction ops with
  | nil => exact fun c mem => absurd mem List.not_mem_nil
  | cons t ts ih =>
    obtain ⟨word, rest⟩ := List.forall_mem_cons.1 words
    cases ts with
    | nil => exact word.ne_semicolon
    | cons t' ts =>
      rw [joinOperands_cons_cons]
      simp only [List.forall_mem_append, List.forall_mem_cons]
      exact ⟨word.ne_semicolon, by decide, by decide, ih rest⟩

theorem getLast?_joinOperands : ∀ c ∈ (joinOperands ops).getLast?, isBlank c = false := by
  induction ops with
  | nil => exact fun c mem => absurd mem (by simp [joinOperands])
  | cons t ts ih =>
    obtain ⟨word, rest⟩ := List.forall_mem_cons.1 words
    cases ts with
    | nil => exact fun c mem => isBlank_of_wordChar (word.2 c (List.mem_of_mem_getLast? mem))
    | cons t' ts =>
      have nonempty := joinOperands_ne_nil rest (List.cons_ne_nil t' ts)
      have tail : (joinOperands (t :: t' :: ts)).getLast? = (joinOperands (t' :: ts)).getLast? := by
        rw [joinOperands_cons_cons, List.getLast?_append_of_ne_nil _ (List.cons_ne_nil _ _),
          List.getLast?_cons_cons, List.getLast?_cons_of_ne_nil nonempty]
      rw [tail]
      exact ih rest

theorem head?_joinOperands : ∀ c ∈ (joinOperands ops).head?, isBlank c = false := by
  match ops with
  | [] => exact fun c mem => absurd mem (by simp [joinOperands])
  | [t] => exact fun c mem => isBlank_of_wordChar ((words t List.mem_cons_self).2 c (List.mem_of_mem_head? mem))
  | t :: t' :: ts =>
    have word := words t List.mem_cons_self
    rw [joinOperands_cons_cons, List.head?_append_of_ne_nil _ word.1]
    exact fun c mem => isBlank_of_wordChar (word.2 c (List.mem_of_mem_head? mem))

/-- The parts of joined operands, without the blanks between them, are the operands. -/
theorem map_trimBlanks_splitCommas (nonempty : ops ≠ []) : (splitCommas (joinOperands ops)).map trimBlanks = ops := by
  induction ops with
  | nil => exact absurd rfl nonempty
  | cons t ts ih =>
    obtain ⟨word, rest⟩ := List.forall_mem_cons.1 words
    cases ts with
    | nil =>
      have one : splitCommas (t ++ []) = [t ++ []] := splitCommas_append word.2 rfl
      rw [List.append_nil] at one
      rw [joinOperands, one, List.map_singleton, word.trimBlanks]
    | cons t' ts =>
      obtain ⟨part, parts, split⟩ := exists_splitCommas_eq_cons (joinOperands (t' :: ts))
      have later := ih rest (List.cons_ne_nil t' ts)
      have blank : splitCommas (' ' :: joinOperands (t' :: ts)) = (' ' :: part) :: parts := splitCommas_cons split
      have comma : splitCommas (',' :: ' ' :: joinOperands (t' :: ts)) = [] :: (' ' :: part) :: parts :=
        splitCommas_cons blank
      rw [split, List.map_cons] at later
      rw [joinOperands_cons_cons, splitCommas_append word.2 comma, List.append_nil, List.map_cons, List.map_cons,
        word.trimBlanks, trimBlanks_blank_cons, later]

theorem operandTexts_joinOperands : operandTexts (joinOperands ops) = ops := by
  by_cases empty : ops = []
  · rw [empty]
    rfl
  · rw [operandTexts, if_neg (joinOperands_ne_nil words empty), map_trimBlanks_splitCommas words empty]

end Join

/-! ### Lines -/

/-- A mnemonic and its operands as a line. -/
def lineText (mnemonic : List Char) (ops : List (List Char)) : List Char :=
  mnemonic ++ if ops = [] then [] else ' ' :: joinOperands ops

theorem assemblyText_eq (i : Instr) :
    assemblyText i = String.ofList (lineText (mnemonicOf i).toList (operandsAsText i)) := rfl

theorem lineText_ne_nil {mnemonic : List Char} (word : IsWord mnemonic) (ops : List (List Char)) :
    lineText mnemonic ops ≠ [] := List.append_ne_nil_of_left_ne_nil word.1 _

theorem mnemonic_of_lineText {mnemonic : List Char} (word : IsWord mnemonic) (ops : List (List Char)) :
    (lineText mnemonic ops).takeWhile (fun c => !isBlank c) = mnemonic := by
  rw [lineText, List.takeWhile_append_of_pos word.not_blank]
  split
  · rw [List.takeWhile_nil, List.append_nil]
  · exact List.append_nil mnemonic

section Line

variable {mnemonic : List Char} {ops : List (List Char)} (word : IsWord mnemonic) (words : ∀ w ∈ ops, IsWord w)

include word words

theorem ne_semicolon_of_mem_lineText : ∀ c ∈ lineText mnemonic ops, c ≠ ';' := by
  rw [lineText, List.forall_mem_append]
  refine ⟨word.ne_semicolon, ?_⟩
  split
  · exact fun c mem => absurd mem List.not_mem_nil
  · exact List.forall_mem_cons.2 ⟨by decide, ne_semicolon_of_mem_joinOperands words⟩

theorem getLast?_lineText : ∀ c ∈ (lineText mnemonic ops).getLast?, isBlank c = false := by
  rw [lineText]
  split
  case isTrue =>
    rw [List.append_nil]
    exact fun c mem => isBlank_of_wordChar (word.2 c (List.mem_of_mem_getLast? mem))
  case isFalse nonempty =>
    rw [List.getLast?_append_of_ne_nil _ (List.cons_ne_nil _ _),
      List.getLast?_cons_of_ne_nil (joinOperands_ne_nil words nonempty)]
    exact getLast?_joinOperands words

theorem uncommented_lineText : uncommented (lineText mnemonic ops) = lineText mnemonic ops := by
  have no_comment : (lineText mnemonic ops).takeWhile (fun c => c != ';') = lineText mnemonic ops :=
    List.takeWhile_eq_self_iff.2 fun c mem => bne_iff_ne.2 (ne_semicolon_of_mem_lineText word words c mem)
  rw [uncommented, no_comment]
  refine trimBlanks_eq_self (fun c mem => ?_) (getLast?_lineText word words)
  rw [lineText, List.head?_append_of_ne_nil _ word.1] at mem
  exact isBlank_of_wordChar (word.2 c (List.mem_of_mem_head? mem))

theorem operands_of_lineText :
    trimBlanks ((lineText mnemonic ops).dropWhile (fun c => !isBlank c)) = joinOperands ops := by
  rw [lineText, List.dropWhile_append_of_pos word.not_blank]
  split
  case isTrue empty =>
    rw [empty]
    rfl
  case isFalse =>
    exact trimBlanks_eq_self (head?_joinOperands words) (getLast?_joinOperands words)

/-- A line of a mnemonic and operands is read as the command they name. -/
theorem readLine_lineText (c : Config) :
    readLine c (String.ofList (lineText mnemonic ops)) =
      (readCommand c (String.ofList mnemonic) ops).filter Instr.wf := by
  simp only [readLine, String.toList_ofList, uncommented_lineText word words, mnemonic_of_lineText word,
    operands_of_lineText word words, operandTexts_joinOperands words]

end Line

/-! ### Commands -/

theorem isWord_mnemonicOf (i : Instr) : IsWord (mnemonicOf i).toList := by
  cases i <;> simp [IsWord, mnemonicOf] <;> decide

theorem isWord_operandsAsText (i : Instr) : ∀ w ∈ operandsAsText i, IsWord w := by
  cases i <;> simp [operandsAsText, isWord_decimalText, isWord_maskText, isWord_valueText]

/-- The mnemonic and operands of a command name it. -/
theorem readCommand_operandsAsText (c : Config) (i : Instr) :
    readCommand c (mnemonicOf i) (operandsAsText i) = some i := by
  cases i <;> simp [readCommand, mnemonicOf, operandsAsText, readNumber_decimalText, readValue_valueText,
    readMask_maskText, readCode_decimalText]

/-- Settles O57: the line of a command is read back as the command, whose words are those of the encoder. -/
theorem commandTextAssemblesToItsWords : Obligations.CommandTextAssemblesToItsWords := by
  intro c i wf
  have word := isWord_mnemonicOf i
  have words := isWord_operandsAsText i
  have line := readLine_lineText word words c
  rw [String.ofList_toList, readCommand_operandsAsText, Option.filter_some, if_pos wf] at line
  rw [assemblyText_eq, assembleLine, String.toList_ofList, uncommented_lineText word words,
    if_neg (lineText_ne_nil word _), line]
  rfl

end Sys2Proof.Machine
end
